-- ==== Sys2Proof/Word.lean ====
section
/-! DEFINITION. The fixed widths of Ida 2 (00_scope.md R6). -/

namespace Sys2Proof

/-- A word: 32 bits, "the only data type and the unit of addressing" (00_scope.md R6, R14). -/
abbrev Word := BitVec 32

/-- A 24-bit word address, of instruction memory or of data memory (00_scope.md R6). -/
abbrev Addr := BitVec 24

/-- A register number: the 4-bit value of a register field (10_state.md R21). -/
abbrev RegNum := BitVec 4

/-- A comparison query `?CQ`, and the content of `$CR`: 3 bits, most significant first less than,
equal to, greater than (10_state.md R30, 30_encoding.md R78). -/
abbrev Query := BitVec 3

end Sys2Proof
end

