-- ==== Sys2Proof/Syntax.lean ====
section
/-! DEFINITION. The instructions of Ida 2: one constructor per row of spec/opcode_table.json, that is per opcode and value
of bit 24 (30_encoding.md R71). Arguments stand in the order of the encoded word: query, `$RD`, `$RS`, and last the
register-immediate operand, whatever the order of the assembly text (30_encoding.md R61, 46_assembler_and_pseudo.md R177).
A field has exactly its encoded width, so every term is an instruction the machine has (30_encoding.md R74). -/

namespace Sys2Proof

/-- An instruction. `…Reg` is the register format (bit 24 = 0, last operand `$RI`), `…Imm` the immediate format (bit 24 = 1,
last operand the immediate field, sign-extended when it is used, 30_encoding.md R68). -/
inductive Instr where
  /-- SHL, Shift Left Logical, opcode 0, register format (41_shift_and_bitwise.md R106). -/
  | shlReg (cq : Query) (rd rs ri : RegNum)
  /-- SHL, Shift Left Logical, opcode 0, immediate format (41_shift_and_bitwise.md R106). -/
  | shlImm (cq : Query) (rd rs : RegNum) (imm : BitVec 16)
  /-- SHR, Shift Right Logical, opcode 1, register format (41_shift_and_bitwise.md R107). -/
  | shrReg (cq : Query) (rd rs ri : RegNum)
  /-- SHR, Shift Right Logical, opcode 1, immediate format (41_shift_and_bitwise.md R107). -/
  | shrImm (cq : Query) (rd rs : RegNum) (imm : BitVec 16)
  /-- AND, And, opcode 2, register format (41_shift_and_bitwise.md R108). -/
  | andReg (cq : Query) (rd rs ri : RegNum)
  /-- AND, And, opcode 2, immediate format (41_shift_and_bitwise.md R108). -/
  | andImm (cq : Query) (rd rs : RegNum) (imm : BitVec 16)
  /-- IOR, Inclusive Or, opcode 3, register format (41_shift_and_bitwise.md R109). -/
  | iorReg (cq : Query) (rd rs ri : RegNum)
  /-- IOR, Inclusive Or, opcode 3, immediate format (41_shift_and_bitwise.md R109). -/
  | iorImm (cq : Query) (rd rs : RegNum) (imm : BitVec 16)
  /-- XOR, Exclusive Or, opcode 4, register format (41_shift_and_bitwise.md R110). -/
  | xorReg (cq : Query) (rd rs ri : RegNum)
  /-- XOR, Exclusive Or, opcode 4, immediate format (41_shift_and_bitwise.md R110). -/
  | xorImm (cq : Query) (rd rs : RegNum) (imm : BitVec 16)
  /-- STU, Set Upper, opcode 5, register format (41_shift_and_bitwise.md R111). -/
  | stuReg (cq : Query) (rd rs ri : RegNum)
  /-- STU, Set Upper, opcode 5, immediate format (41_shift_and_bitwise.md R111). -/
  | stuImm (cq : Query) (rd rs : RegNum) (imm : BitVec 16)
  /-- MUL, Multiplication, opcode 6, register format (42_arithmetic.md R121). -/
  | mulReg (cq : Query) (rd rs ri : RegNum)
  /-- MUL, Multiplication, opcode 6, immediate format (42_arithmetic.md R121). -/
  | mulImm (cq : Query) (rd rs : RegNum) (imm : BitVec 16)
  /-- DIV, Signed Division, opcode 7, register format (42_arithmetic.md R122). -/
  | divReg (cq : Query) (rd rs ri : RegNum)
  /-- DIV, Signed Division, opcode 7, immediate format (42_arithmetic.md R122). -/
  | divImm (cq : Query) (rd rs : RegNum) (imm : BitVec 16)
  /-- SUB, Subtraction, opcode 8, register format (42_arithmetic.md R123). -/
  | subReg (cq : Query) (rd rs ri : RegNum)
  /-- SUB, Subtraction, opcode 8, immediate format (42_arithmetic.md R123). -/
  | subImm (cq : Query) (rd rs : RegNum) (imm : BitVec 16)
  /-- ADD, Addition, opcode 9, register format (42_arithmetic.md R124). -/
  | addReg (cq : Query) (rd rs ri : RegNum)
  /-- ADD, Addition, opcode 9, immediate format (42_arithmetic.md R124). -/
  | addImm (cq : Query) (rd rs : RegNum) (imm : BitVec 16)
  /-- MLD, Memory Load, opcode 10, register format (43_memory_access.md R136). -/
  | mldReg (cq : Query) (rd rs ri : RegNum)
  /-- MLD, Memory Load, opcode 10, immediate format (43_memory_access.md R136). -/
  | mldImm (cq : Query) (rd rs : RegNum) (imm : BitVec 16)
  /-- MST, Memory Store, opcode 11, register format (43_memory_access.md R137). -/
  | mstReg (cq : Query) (rd rs ri : RegNum)
  /-- MST, Memory Store, opcode 11, immediate format (43_memory_access.md R137). -/
  | mstImm (cq : Query) (rd rs : RegNum) (imm : BitVec 16)
  /-- STL, Set Lower, opcode 12, register format (44_set_compare_link.md R146). -/
  | stlReg (cq : Query) (rd ri : RegNum)
  /-- STL, Set Lower, opcode 12, immediate format (44_set_compare_link.md R146). -/
  | stlImm (cq : Query) (rd : RegNum) (imm : BitVec 20)
  /-- CMP, Signed Comparison, opcode 13, register format (44_set_compare_link.md R150). -/
  | cmpReg (cq : Query) (rd ri : RegNum)
  /-- CMP, Signed Comparison, opcode 13, immediate format (44_set_compare_link.md R150). -/
  | cmpImm (cq : Query) (rd : RegNum) (imm : BitVec 20)
  /-- LNK, Link To Offset From $PC, opcode 14, register format (44_set_compare_link.md R153). -/
  | lnkReg (cq : Query) (rd ri : RegNum)
  /-- LNK, Link To Offset From $PC, opcode 14, immediate format (44_set_compare_link.md R153). -/
  | lnkImm (cq : Query) (rd : RegNum) (imm : BitVec 20)
  /-- JMP, Jump To Address, opcode 15, register format (45_jump.md R161). -/
  | jmpReg (cq : Query) (ri : RegNum)
  /-- JMP, Jump To Address, opcode 15, immediate format (45_jump.md R161). -/
  | jmpImm (cq : Query) (imm : BitVec 24)
  deriving DecidableEq, Repr

end Sys2Proof
end

