-- ==== Sys2Proof/WellFormed.lean ====
section
/-! DEFINITION. What can be ill formed. An `Instr` cannot: its fields have exactly the encoded widths and every value of
every field is legal (30_encoding.md R74), so no check on it could refuse a term. An instruction WORD can differ from every
word the assembler writes, in the unused bits of the register formats (30_encoding.md R73, R77): the machine runs such a
word as if those bits were zero, and `canonicalWord` is the check that refuses it. -/

namespace Sys2Proof

/-- The unused bits of a word: none in the immediate formats; 15:4, 19:4 or 23:4 in the 3-ARG, 2-ARG or 1-ARG register
format (30_encoding.md R62 to R67, R71). -/
def unusedMask (w : Word) : Word :=
  if w.getLsbD 24 then 0x00000000#32
  else if (w.extractLsb' 28 4).toNat ≤ 11 then 0x0000FFF0#32
  else if (w.extractLsb' 28 4).toNat ≤ 14 then 0x000FFFF0#32
  else 0x00FFFFF0#32

/-- The word with its unused bits set to zero: what the assembler writes for the same instruction (30_encoding.md R77). -/
def clearUnused (w : Word) : Word := w &&& ~~~ (unusedMask w)

/-- The word's unused bits are zero, as in every word an assembler writes (30_encoding.md R73, R77). -/
def canonicalWord (w : Word) : Bool := (w &&& unusedMask w) == 0x00000000#32

end Sys2Proof
end

