-- ==== Sys2Proof/Decode.lean ====
section
/-! DEFINITION. The decoder and, after it, the encoder (30_encoding.md R60 to R79). Decoding is total on all 2^32 words and
refuses none, since every one is a valid instruction (30_encoding.md R74); the unused bits of the register formats are
ignored (R73, notes/assumptions/8.md). -/

namespace Sys2Proof

/-! ### The fields of a word (30_encoding.md R61, R72) -/

/-- Bits 31:28, `OPCODE`. -/
def opcodeField (w : Word) : BitVec 4 := w.extractLsb' 28 4
/-- Bits 27:25, `?CQ`. -/
def queryField (w : Word) : Query := w.extractLsb' 25 3
/-- Bit 24: the last operand is an immediate. -/
def immediateBit (w : Word) : Bool := w.getLsbD 24
/-- Bits 23:20, `$RD`. -/
def rdField (w : Word) : RegNum := w.extractLsb' 20 4
/-- Bits 19:16, `$RS`. -/
def rsField (w : Word) : RegNum := w.extractLsb' 16 4
/-- Bits 3:0, `$RI`. -/
def riField (w : Word) : RegNum := w.extractLsb' 0 4
/-- Bits 15:0, `IMM16`. -/
def imm16Field (w : Word) : BitVec 16 := w.extractLsb' 0 16
/-- Bits 19:0, `IMM20`. -/
def imm20Field (w : Word) : BitVec 20 := w.extractLsb' 0 20
/-- Bits 23:0, `IMM24`. -/
def imm24Field (w : Word) : BitVec 24 := w.extractLsb' 0 24

/-! ### The decoder -/

/-- The register format (bit 24 = 0) of each opcode (30_encoding.md R62 to R64, R70). The last line is opcode 15, the one
value of the 4-bit field the lines above leave. -/
def decodeReg (w : Word) : Instr :=
  match (opcodeField w).toNat with
  | 0 => .shlReg (queryField w) (rdField w) (rsField w) (riField w)
  | 1 => .shrReg (queryField w) (rdField w) (rsField w) (riField w)
  | 2 => .andReg (queryField w) (rdField w) (rsField w) (riField w)
  | 3 => .iorReg (queryField w) (rdField w) (rsField w) (riField w)
  | 4 => .xorReg (queryField w) (rdField w) (rsField w) (riField w)
  | 5 => .stuReg (queryField w) (rdField w) (rsField w) (riField w)
  | 6 => .mulReg (queryField w) (rdField w) (rsField w) (riField w)
  | 7 => .divReg (queryField w) (rdField w) (rsField w) (riField w)
  | 8 => .subReg (queryField w) (rdField w) (rsField w) (riField w)
  | 9 => .addReg (queryField w) (rdField w) (rsField w) (riField w)
  | 10 => .mldReg (queryField w) (rdField w) (rsField w) (riField w)
  | 11 => .mstReg (queryField w) (rdField w) (rsField w) (riField w)
  | 12 => .stlReg (queryField w) (rdField w) (riField w)
  | 13 => .cmpReg (queryField w) (rdField w) (riField w)
  | 14 => .lnkReg (queryField w) (rdField w) (riField w)
  | _ => .jmpReg (queryField w) (riField w)

/-- The immediate format (bit 24 = 1) of each opcode (30_encoding.md R65 to R67, R70). The last line is opcode 15. -/
def decodeImm (w : Word) : Instr :=
  match (opcodeField w).toNat with
  | 0 => .shlImm (queryField w) (rdField w) (rsField w) (imm16Field w)
  | 1 => .shrImm (queryField w) (rdField w) (rsField w) (imm16Field w)
  | 2 => .andImm (queryField w) (rdField w) (rsField w) (imm16Field w)
  | 3 => .iorImm (queryField w) (rdField w) (rsField w) (imm16Field w)
  | 4 => .xorImm (queryField w) (rdField w) (rsField w) (imm16Field w)
  | 5 => .stuImm (queryField w) (rdField w) (rsField w) (imm16Field w)
  | 6 => .mulImm (queryField w) (rdField w) (rsField w) (imm16Field w)
  | 7 => .divImm (queryField w) (rdField w) (rsField w) (imm16Field w)
  | 8 => .subImm (queryField w) (rdField w) (rsField w) (imm16Field w)
  | 9 => .addImm (queryField w) (rdField w) (rsField w) (imm16Field w)
  | 10 => .mldImm (queryField w) (rdField w) (rsField w) (imm16Field w)
  | 11 => .mstImm (queryField w) (rdField w) (rsField w) (imm16Field w)
  | 12 => .stlImm (queryField w) (rdField w) (imm20Field w)
  | 13 => .cmpImm (queryField w) (rdField w) (imm20Field w)
  | 14 => .lnkImm (queryField w) (rdField w) (imm20Field w)
  | _ => .jmpImm (queryField w) (imm24Field w)

/-- The instruction a word is (30_encoding.md R72): total, one instruction for every word. -/
def decode (w : Word) : Instr :=
  if immediateBit w then decodeImm w else decodeReg w

/-- The instruction read from the `nbits` bits `w` of a row of spec/opcode_table.json, bits above `nbits` zero. An Ida 2
instruction is exactly one 32-bit word (30_encoding.md R60), so longer ones are none (notes/assumptions/20.md). -/
def decodeTableWord (nbits w : Nat) : Option Instr :=
  if nbits ≤ 32 then some (decode (BitVec.ofNat 32 (w % 2 ^ nbits))) else none

/-! ### The encoder (30_encoding.md R77) -/

/-- A field of a word: the value placed with its least significant bit at bit `k`. -/
def placeField {n : Nat} (v : BitVec n) (k : Nat) : Word := v.setWidth 32 <<< k

/-- `op << 28 | cq << 25 | I << 24`, common to the six formats (30_encoding.md R61, R77). -/
def wordHead (op : BitVec 4) (cq : Query) (immediate : Bool) : Word :=
  placeField op 28 ||| placeField cq 25 ||| placeField (BitVec.ofBool immediate) 24

/-- 3-ARG register format, unused bits 15:4 zero (30_encoding.md R64). -/
def wordThreeReg (op : BitVec 4) (cq : Query) (rd rs ri : RegNum) : Word :=
  wordHead op cq false ||| placeField rd 20 ||| placeField rs 16 ||| placeField ri 0
/-- 3-ARG immediate format (30_encoding.md R67). -/
def wordThreeImm (op : BitVec 4) (cq : Query) (rd rs : RegNum) (imm : BitVec 16) : Word :=
  wordHead op cq true ||| placeField rd 20 ||| placeField rs 16 ||| placeField imm 0
/-- 2-ARG register format, unused bits 19:4 zero (30_encoding.md R63). -/
def wordTwoReg (op : BitVec 4) (cq : Query) (rd ri : RegNum) : Word :=
  wordHead op cq false ||| placeField rd 20 ||| placeField ri 0
/-- 2-ARG immediate format (30_encoding.md R66). -/
def wordTwoImm (op : BitVec 4) (cq : Query) (rd : RegNum) (imm : BitVec 20) : Word :=
  wordHead op cq true ||| placeField rd 20 ||| placeField imm 0
/-- 1-ARG register format, unused bits 23:4 zero (30_encoding.md R62). -/
def wordOneReg (op : BitVec 4) (cq : Query) (ri : RegNum) : Word :=
  wordHead op cq false ||| placeField ri 0
/-- 1-ARG immediate format (30_encoding.md R65). -/
def wordOneImm (op : BitVec 4) (cq : Query) (imm : BitVec 24) : Word :=
  wordHead op cq true ||| placeField imm 0

/-- The word of an instruction, as the assembler writes it (30_encoding.md R70, R77). -/
def encode : Instr → Word
  | .shlReg cq rd rs ri => wordThreeReg 0#4 cq rd rs ri
  | .shlImm cq rd rs imm => wordThreeImm 0#4 cq rd rs imm
  | .shrReg cq rd rs ri => wordThreeReg 1#4 cq rd rs ri
  | .shrImm cq rd rs imm => wordThreeImm 1#4 cq rd rs imm
  | .andReg cq rd rs ri => wordThreeReg 2#4 cq rd rs ri
  | .andImm cq rd rs imm => wordThreeImm 2#4 cq rd rs imm
  | .iorReg cq rd rs ri => wordThreeReg 3#4 cq rd rs ri
  | .iorImm cq rd rs imm => wordThreeImm 3#4 cq rd rs imm
  | .xorReg cq rd rs ri => wordThreeReg 4#4 cq rd rs ri
  | .xorImm cq rd rs imm => wordThreeImm 4#4 cq rd rs imm
  | .stuReg cq rd rs ri => wordThreeReg 5#4 cq rd rs ri
  | .stuImm cq rd rs imm => wordThreeImm 5#4 cq rd rs imm
  | .mulReg cq rd rs ri => wordThreeReg 6#4 cq rd rs ri
  | .mulImm cq rd rs imm => wordThreeImm 6#4 cq rd rs imm
  | .divReg cq rd rs ri => wordThreeReg 7#4 cq rd rs ri
  | .divImm cq rd rs imm => wordThreeImm 7#4 cq rd rs imm
  | .subReg cq rd rs ri => wordThreeReg 8#4 cq rd rs ri
  | .subImm cq rd rs imm => wordThreeImm 8#4 cq rd rs imm
  | .addReg cq rd rs ri => wordThreeReg 9#4 cq rd rs ri
  | .addImm cq rd rs imm => wordThreeImm 9#4 cq rd rs imm
  | .mldReg cq rd rs ri => wordThreeReg 10#4 cq rd rs ri
  | .mldImm cq rd rs imm => wordThreeImm 10#4 cq rd rs imm
  | .mstReg cq rd rs ri => wordThreeReg 11#4 cq rd rs ri
  | .mstImm cq rd rs imm => wordThreeImm 11#4 cq rd rs imm
  | .stlReg cq rd ri => wordTwoReg 12#4 cq rd ri
  | .stlImm cq rd imm => wordTwoImm 12#4 cq rd imm
  | .cmpReg cq rd ri => wordTwoReg 13#4 cq rd ri
  | .cmpImm cq rd imm => wordTwoImm 13#4 cq rd imm
  | .lnkReg cq rd ri => wordTwoReg 14#4 cq rd ri
  | .lnkImm cq rd imm => wordTwoImm 14#4 cq rd imm
  | .jmpReg cq ri => wordOneReg 15#4 cq ri
  | .jmpImm cq imm => wordOneImm 15#4 cq imm

/-! ### What an instruction is, as data -/

/-- The `?CQ` of an instruction (30_encoding.md R78). -/
def Instr.query : Instr → Query
  | .shlReg cq _ _ _ | .shlImm cq _ _ _ => cq
  | .shrReg cq _ _ _ | .shrImm cq _ _ _ => cq
  | .andReg cq _ _ _ | .andImm cq _ _ _ => cq
  | .iorReg cq _ _ _ | .iorImm cq _ _ _ => cq
  | .xorReg cq _ _ _ | .xorImm cq _ _ _ => cq
  | .stuReg cq _ _ _ | .stuImm cq _ _ _ => cq
  | .mulReg cq _ _ _ | .mulImm cq _ _ _ => cq
  | .divReg cq _ _ _ | .divImm cq _ _ _ => cq
  | .subReg cq _ _ _ | .subImm cq _ _ _ => cq
  | .addReg cq _ _ _ | .addImm cq _ _ _ => cq
  | .mldReg cq _ _ _ | .mldImm cq _ _ _ => cq
  | .mstReg cq _ _ _ | .mstImm cq _ _ _ => cq
  | .stlReg cq _ _ | .stlImm cq _ _ => cq
  | .cmpReg cq _ _ | .cmpImm cq _ _ => cq
  | .lnkReg cq _ _ | .lnkImm cq _ _ => cq
  | .jmpReg cq _ | .jmpImm cq _ => cq

/-- The `match` entry of an instruction's row of spec/opcode_table.json, under the mask `0xF1000000`. -/
def Instr.rowMatch : Instr → Word
  | .shlReg _ _ _ _ => 0x00000000#32
  | .shlImm _ _ _ _ => 0x01000000#32
  | .shrReg _ _ _ _ => 0x10000000#32
  | .shrImm _ _ _ _ => 0x11000000#32
  | .andReg _ _ _ _ => 0x20000000#32
  | .andImm _ _ _ _ => 0x21000000#32
  | .iorReg _ _ _ _ => 0x30000000#32
  | .iorImm _ _ _ _ => 0x31000000#32
  | .xorReg _ _ _ _ => 0x40000000#32
  | .xorImm _ _ _ _ => 0x41000000#32
  | .stuReg _ _ _ _ => 0x50000000#32
  | .stuImm _ _ _ _ => 0x51000000#32
  | .mulReg _ _ _ _ => 0x60000000#32
  | .mulImm _ _ _ _ => 0x61000000#32
  | .divReg _ _ _ _ => 0x70000000#32
  | .divImm _ _ _ _ => 0x71000000#32
  | .subReg _ _ _ _ => 0x80000000#32
  | .subImm _ _ _ _ => 0x81000000#32
  | .addReg _ _ _ _ => 0x90000000#32
  | .addImm _ _ _ _ => 0x91000000#32
  | .mldReg _ _ _ _ => 0xA0000000#32
  | .mldImm _ _ _ _ => 0xA1000000#32
  | .mstReg _ _ _ _ => 0xB0000000#32
  | .mstImm _ _ _ _ => 0xB1000000#32
  | .stlReg _ _ _ => 0xC0000000#32
  | .stlImm _ _ _ => 0xC1000000#32
  | .cmpReg _ _ _ => 0xD0000000#32
  | .cmpImm _ _ _ => 0xD1000000#32
  | .lnkReg _ _ _ => 0xE0000000#32
  | .lnkImm _ _ _ => 0xE1000000#32
  | .jmpReg _ _ => 0xF0000000#32
  | .jmpImm _ _ => 0xF1000000#32

/-- The mask of every row of spec/opcode_table.json: bits 31:28 and bit 24. -/
def rowMask : Word := 0xF1000000#32

end Sys2Proof
end

