-- ==== Sys2Proof/Config.lean ====
section
/-! DEFINITION. What the spec leaves to the launch (00_scope.md R7): the values `State.reset` gives to the launch
parameters. Every other launch is `State.launch` with the launch's own values, and no statement rests on the values
chosen here. -/

namespace Sys2Proof

/-- `RESET_PC`, the entry point. DESIGN CHOICE: the default the spec itself takes, `0x000000`
(70_reset_and_hazards.md R237, D4). Unsafe, notes/assumptions/2.md. -/
def Config.resetPc : Addr := 0x000000#24

/-- `RESET_X`, the general registers at the start. DESIGN CHOICE: the spec gives no value
(70_reset_and_hazards.md R238, D5); zero for each. Unsafe, notes/assumptions/1.md. -/
def Config.resetX : Vector Word 16 := Vector.replicate 16 0x00000000#32

/-- What a word of either memory that no list entry names reads as. DESIGN CHOICE: the spec gives no contents
(70_reset_and_hazards.md R239, R240, D6, D7); zero. Unsafe, notes/assumptions/3.md and notes/assumptions/4.md. -/
def Config.unlistedWord : Word := 0x00000000#32

end Sys2Proof
end

