-- ==== Sys2Proof/Machine/State.lean ====
section
/-! DEFINITION. The state of the machine, the ways a step can stop, and the state after reset (10_state.md R20, R39). -/

namespace Sys2Proof.Machine

/-- One word of a memory at its word address. The spec's smallest addressable unit is the 32-bit word and no byte exists
inside the machine (20_memory.md R42, R48; notes/assumptions/13.md). -/
abbrev Cell := Nat × Word

/-- A memory of 2^24 words (20_memory.md R40): the words that differ from `Config.unlistedWord`, addresses strictly rising.
Every contents of the 2^24 words is exactly one such list. -/
abbrev Memory := List Cell

/-- The complete architectural state: "exactly this record" (10_state.md R20). -/
structure State where
  /-- The 16 general registers `$00` to `$15` (10_state.md R21, R22); none is hardwired (R23). -/
  x : Vector Word 16
  /-- `$PC`, 24 bits: during an instruction, that instruction's own address (10_state.md R26 to R28). -/
  pc : Addr
  /-- `$CR`, 3 bits, the only condition state (10_state.md R30). -/
  cr : Query
  /-- `IMEM`: instruction memory, read-only (20_memory.md R41). -/
  imem : Memory
  /-- `DMEM`: data memory (20_memory.md R42). -/
  dmem : Memory
  deriving DecidableEq, Repr

/-- The faults of a step. There is none: "Ida 2 raises no synchronous exception" and "No behaviour of Ida 2 is treated as
`fault`" (60_exceptions.md R210; 93_implementation_defined.md; notes/assumptions/19.md). -/
inductive Fault where
  deriving DecidableEq, Repr

/-- The refusals of a step. -/
inductive Refusal where
  /-- Raised by an arm of `exec` whose instruction has no meaning yet; safe. No arm raises it: every instruction of
  spec/opcode_table.json has its meaning. -/
  | notModelled (mnemonic : String)
  deriving DecidableEq, Repr

/-- The state at the start of a program, for the launch parameters of 00_scope.md R7: `RESET_PC`, `RESET_X`, `IMEM` and
`DMEM_INIT`. `$CR` is `?OK` (70_reset_and_hazards.md R236), and there is no other state to reset (R241). -/
def State.launch (resetPc : Addr) (resetX : Vector Word 16) (imem dmem : Memory) : State where
  x := resetX
  pc := resetPc
  cr := 0b111#3
  imem := imem
  dmem := dmem

/-- The machine right after reset: the launch with the values of `Config` and no memory word listed
(70_reset_and_hazards.md R235 to R241). -/
def State.reset : State := State.launch Config.resetPc Config.resetX [] []

end Sys2Proof.Machine
end

