-- ==== Sys2Proof/Machine/Flags.lean ====
section
/-! DEFINITION. The queries, the query test and the value CMP computes: the only condition state of the machine is `$CR`, and
there are no carry, overflow, zero or sign flags (10_state.md R30). -/

namespace Sys2Proof.Machine

/-! ### The eight queries by name (30_encoding.md R78) -/

/-- `?NO`: never execute. -/
def queryNo : Query := 0b000#3
/-- `?GT`: A > B. -/
def queryGt : Query := 0b001#3
/-- `?EQ`: A == B. -/
def queryEq : Query := 0b010#3
/-- `?GE`: A >= B. -/
def queryGe : Query := 0b011#3
/-- `?LT`: A < B. -/
def queryLt : Query := 0b100#3
/-- `?NE`: A != B. -/
def queryNe : Query := 0b101#3
/-- `?LE`: A <= B. -/
def queryLe : Query := 0b110#3
/-- `?OK`: always execute; the content of `$CR` before any comparison. -/
def queryOk : Query := 0b111#3

/-- The query test (40_execution_cycle.md R93): the instruction executes if and only if the query and `$CR` have a bit in
common. DESIGN CHOICE of the spec (D16) on the values of `$CR` no run reaches, notes/assumptions/10.md. -/
def queryPasses (cq cr : Query) : Bool := cq &&& cr != 0b000#3

/-- The value CMP gives `$CR` (44_set_compare_link.md R150): the signed comparison of A with B. -/
def compareSigned (a b : Word) : Query :=
  if a.toInt < b.toInt then queryLt else if a = b then queryEq else queryGt

end Sys2Proof.Machine
end

