-- ==== Sys2Proof/Machine/Ops.lean ====
section
/-! DEFINITION. The named operations over memory, registers, `$PC` and `$CR` that every meaning is built from, and the frame
all instructions share: run when the query passes, otherwise only advance (40_execution_cycle.md R90).

Taking an exception and returning from one have no operation here, because the machine has neither (60_exceptions.md R210,
R215, R217, R218): control goes only to `pc + 1` or to a JMP target. -/

namespace Sys2Proof.Machine

/-! ### Memory (20_memory.md R40 to R47) -/

/-- The word at an address: the listed one, or what an unlisted address reads as. -/
def Memory.lookup : Memory → Nat → Word
  | [], _ => Config.unlistedWord
  | (k, v) :: rest, a => if k = a then v else Memory.lookup rest a

/-- The memory without an entry for an address. -/
def Memory.erase (m : Memory) (a : Nat) : Memory := m.filter fun c => c.1 != a

/-- An entry put at its place in the rising order. -/
def Memory.place : Memory → Nat → Word → Memory
  | [], a, v => [(a, v)]
  | (k, w) :: rest, a, v => if a < k then (a, v) :: (k, w) :: rest else (k, w) :: Memory.place rest a v

/-- Put a word at an address, keeping the canonical form: what stood there goes, and writing what an unlisted address reads as
lists nothing. -/
def Memory.insert (m : Memory) (a : Nat) (v : Word) : Memory :=
  if v = Config.unlistedWord then Memory.erase m a else Memory.place (Memory.erase m a) a v

/-- Every entry's address is at least `lo`, they rise strictly, they are 24-bit addresses, and none holds what an unlisted
address reads as. -/
def Memory.wfFrom : Nat → Memory → Bool
  | _, [] => true
  | lo, (k, v) :: rest => decide (lo ≤ k) && decide (k < 2 ^ 24) && v != Config.unlistedWord && Memory.wfFrom (k + 1) rest

/-- The canonical form of a memory. -/
def Memory.wf (m : Memory) : Bool := Memory.wfFrom 0 m

/-- `MemRead(a, 1)` and `IMemRead(a)`: one 32-bit word, no side effect (20_memory.md R41, R43). -/
def Memory.read (m : Memory) (a : Addr) : Word := Memory.lookup m a.toNat

/-- `MemWrite(a, 1, v)`: all 32 bits of cell `a` replaced, no other cell changed (20_memory.md R44). -/
def Memory.write (m : Memory) (a : Addr) (v : Word) : Memory := Memory.insert m a.toNat v

/-- Write words at consecutive addresses from `a` upward, as the assembler's words are placed
(70_reset_and_hazards.md R239). -/
def Memory.writeFrom : Memory → Addr → List Word → Memory
  | m, _, [] => m
  | m, a, v :: vs => Memory.writeFrom (Memory.write m a v) (a + 1#24) vs

/-- Both memories of a state are in canonical form. -/
def State.memWf (s : State) : Bool := Memory.wf s.imem && Memory.wf s.dmem

/-! ### Registers (10_state.md R21 to R25) -/

/-- `x[r]`. -/
def State.readReg (s : State) (r : RegNum) : Word := s.x[r.toNat]'r.isLt

/-- `x[r] <- v`: all 32 bits, and no register discards a write (10_state.md R23). -/
def State.writeReg (s : State) (r : RegNum) (v : Word) : State :=
  { s with x := s.x.set r.toNat v r.isLt }

/-! ### `$CR`, `$PC`, data memory, fetch -/

/-- `cr <- v`. -/
def State.setCr (s : State) (v : Query) : State := { s with cr := v }

/-- `pc <- t`. -/
def State.setPc (s : State) (t : Addr) : State := { s with pc := t }

/-- `pc <- (pc + 1) mod 2^24` (10_state.md R29, 40_execution_cycle.md R96). The wrap at `0xFFFFFF` is the spec's decision D3,
notes/assumptions/7.md. -/
def State.advance (s : State) : State := s.setPc (s.pc + 1#24)

/-- The word at address `a` of data memory. -/
def State.load (s : State) (a : Addr) : Word := Memory.read s.dmem a

/-- Store a word at address `a` of data memory; instruction memory cannot be reached (20_memory.md R56). -/
def State.store (s : State) (a : Addr) (v : Word) : State := { s with dmem := Memory.write s.dmem a v }

/-- The instruction word of this step: the one at `pc` of instruction memory (40_execution_cycle.md R91). -/
def State.fetchWord (s : State) : Word := Memory.read s.imem s.pc

/-! ### The frame of every instruction -/

/-- Run or skip (40_execution_cycle.md R90, R95): `done` is the state the instruction leaves when it executes; a skipped
instruction only advances `pc`. Always a next state (60_exceptions.md R210). -/
def conditionally (cq : Query) (s done : State) : Host.Outcome State Fault Refusal :=
  .next (if queryPasses cq s.cr then done else s.advance)

/-- An instruction whose destination is `x[rd]` (40_execution_cycle.md R97): the result is written, then `pc` advances. -/
def writeResult (cq : Query) (rd : RegNum) (v : Word) (s : State) : Host.Outcome State Fault Refusal :=
  conditionally cq s (s.writeReg rd v).advance

end Sys2Proof.Machine
end

