-- ==== Sys2Proof/Machine/Operands.lean ====
section
/-! DEFINITION. The operand forms: the register-immediate operand in its register and immediate formats
(30_encoding.md R68), and the addresses formed from 32-bit values (20_memory.md R45, 45_jump.md R161). -/

namespace Sys2Proof.Machine

/-- `RI16`, `RI20` or `RI24` in register format: the full 32-bit value of `x[$RI]` (30_encoding.md R68, R69). -/
def registerOperand (ri : RegNum) (s : State) : Word := s.readReg ri

/-- `RI16` in immediate format: `sext_16(IMM16)` (30_encoding.md R68). -/
def immediate16 (imm : BitVec 16) : Word := imm.signExtend 32

/-- `RI20` in immediate format: `sext_20(IMM20)` (30_encoding.md R68). -/
def immediate20 (imm : BitVec 20) : Word := imm.signExtend 32

/-- `RI24` in immediate format: `sext_24(IMM24)` (30_encoding.md R68). -/
def immediate24 (imm : BitVec 24) : Word := imm.signExtend 32

/-- The effective address of MLD and MST, `(x[rs] + RI16)[23:0]` (43_memory_access.md R135, 20_memory.md R45). -/
def effectiveAddress (base offset : Word) : Addr := (base + offset).extractLsb' 0 24

/-- The target of JMP, `RI24[23:0]` (45_jump.md R161). -/
def jumpTarget (ri24 : Word) : Addr := ri24.extractLsb' 0 24

/-- `$PC` as LNK reads it: `sext_24(pc)` (44_set_compare_link.md R153). -/
def pcOperand (s : State) : Word := s.pc.signExtend 32

end Sys2Proof.Machine
end

