-- ==== Sys2Proof/Machine/Alu.lean ====
section
/-! DEFINITION. The values the shift, bitwise, set and arithmetic instructions compute from their two operands: first `$RS`,
then the register-immediate. No operation writes a flag (41_shift_and_bitwise.md R105, 42_arithmetic.md R120). -/

namespace Sys2Proof.Machine

/-- The shift amount: `RI16[4:0]`, 0 to 31 (41_shift_and_bitwise.md R106, R107). -/
def shiftAmount (ri : Word) : BitVec 5 := ri.extractLsb' 0 5

/-- SHL: zeros enter at bit 0 (R106). -/
def shiftLeft (rs ri : Word) : Word := rs <<< (shiftAmount ri).toNat

/-- SHR: zeros enter at bit 31 (R107). -/
def shiftRight (rs ri : Word) : Word := rs >>> (shiftAmount ri).toNat

/-- AND (R108). -/
def bitAnd (rs ri : Word) : Word := rs &&& ri

/-- IOR (R109). -/
def bitOr (rs ri : Word) : Word := rs ||| ri

/-- XOR (R110). -/
def bitXor (rs ri : Word) : Word := rs ^^^ ri

/-- STU: the low half of the register-immediate above the low half of `$RS` (R111). -/
def setUpper (rs ri : Word) : Word := ri.extractLsb' 0 16 ++ rs.extractLsb' 0 16

/-- MUL: the low 32 bits of the product (42_arithmetic.md R121; the width is the spec's decision D18,
notes/assumptions/17.md). -/
def multiply (rs ri : Word) : Word := rs * ri

/-- DIV: signed, rounded toward zero; a zero divisor is replaced by 1; -2^31 by -1 gives -2^31 (42_arithmetic.md R122). -/
def divide (rs ri : Word) : Word :=
  if ri = 0#32 then rs
  else if rs = 0x80000000#32 ∧ ri = 0xFFFFFFFF#32 then 0x80000000#32
  else BitVec.ofInt 32 (rs.toInt.tdiv ri.toInt)

/-- SUB: the register-immediate minus `$RS`, modulo 2^32 (42_arithmetic.md R123). -/
def subtract (rs ri : Word) : Word := ri - rs

/-- ADD: modulo 2^32 (42_arithmetic.md R124). -/
def addWrap (rs ri : Word) : Word := rs + ri

end Sys2Proof.Machine
end

