-- ==== Sys2Proof/Machine/Arithmetic.lean ====
section
/-! DEFINITION. The meanings of MUL, DIV, SUB and ADD (42_arithmetic.md). None raises anything or writes a flag (R120, R125). -/

namespace Sys2Proof.Machine

/-- MUL, `$RD <- $RS * RI16` (R121), register format. -/
def execMulReg (cq : Query) (rd rs ri : RegNum) (s : State) : Host.Outcome State Fault Refusal :=
  writeResult cq rd (multiply (s.readReg rs) (registerOperand ri s)) s

/-- MUL, `$RD <- $RS * RI16` (R121), immediate format. -/
def execMulImm (cq : Query) (rd rs : RegNum) (imm : BitVec 16) (s : State) : Host.Outcome State Fault Refusal :=
  writeResult cq rd (multiply (s.readReg rs) (immediate16 imm)) s

/-- DIV, `$RD <- $RS / RI16` (R122), register format. -/
def execDivReg (cq : Query) (rd rs ri : RegNum) (s : State) : Host.Outcome State Fault Refusal :=
  writeResult cq rd (divide (s.readReg rs) (registerOperand ri s)) s

/-- DIV, `$RD <- $RS / RI16` (R122), immediate format. -/
def execDivImm (cq : Query) (rd rs : RegNum) (imm : BitVec 16) (s : State) : Host.Outcome State Fault Refusal :=
  writeResult cq rd (divide (s.readReg rs) (immediate16 imm)) s

/-- SUB, `$RD <- RI16 - $RS` (R123), register format. -/
def execSubReg (cq : Query) (rd rs ri : RegNum) (s : State) : Host.Outcome State Fault Refusal :=
  writeResult cq rd (subtract (s.readReg rs) (registerOperand ri s)) s

/-- SUB, `$RD <- RI16 - $RS` (R123), immediate format. -/
def execSubImm (cq : Query) (rd rs : RegNum) (imm : BitVec 16) (s : State) : Host.Outcome State Fault Refusal :=
  writeResult cq rd (subtract (s.readReg rs) (immediate16 imm)) s

/-- ADD, `$RD <- $RS + RI16` (R124), register format. -/
def execAddReg (cq : Query) (rd rs ri : RegNum) (s : State) : Host.Outcome State Fault Refusal :=
  writeResult cq rd (addWrap (s.readReg rs) (registerOperand ri s)) s

/-- ADD, `$RD <- $RS + RI16` (R124), immediate format. -/
def execAddImm (cq : Query) (rd rs : RegNum) (imm : BitVec 16) (s : State) : Host.Outcome State Fault Refusal :=
  writeResult cq rd (addWrap (s.readReg rs) (immediate16 imm)) s

end Sys2Proof.Machine
end

