-- ==== Sys2Proof/Machine/Jump.lean ====
section
/-! DEFINITION. The meaning of JMP, the only writer of `$PC` other than the advance (45_jump.md). -/

namespace Sys2Proof.Machine

/-- JMP, `$PC <- RI24[23:0]`, absolute and not incremented (R161), register format. -/
def execJmpReg (cq : Query) (ri : RegNum) (s : State) : Host.Outcome State Fault Refusal :=
  conditionally cq s (s.setPc (jumpTarget (registerOperand ri s)))

/-- JMP (R161), immediate format. -/
def execJmpImm (cq : Query) (imm : BitVec 24) (s : State) : Host.Outcome State Fault Refusal :=
  conditionally cq s (s.setPc (jumpTarget (immediate24 imm)))

end Sys2Proof.Machine
end

