-- ==== Sys2Proof/Machine/MemoryAccess.lean ====
section
/-! DEFINITION. The meanings of MLD and MST, the only instructions that reach data memory (43_memory_access.md). -/

namespace Sys2Proof.Machine

/-- MLD, `$RD <- MEM(($RS + RI16)[23:0])` (R136), register format. -/
def execMldReg (cq : Query) (rd rs ri : RegNum) (s : State) : Host.Outcome State Fault Refusal :=
  writeResult cq rd (s.load (effectiveAddress (s.readReg rs) (registerOperand ri s))) s

/-- MLD (R136), immediate format. -/
def execMldImm (cq : Query) (rd rs : RegNum) (imm : BitVec 16) (s : State) : Host.Outcome State Fault Refusal :=
  writeResult cq rd (s.load (effectiveAddress (s.readReg rs) (immediate16 imm))) s

/-- MST, `MEM(($RS + RI16)[23:0]) <- $RD` (R137), register format. `$RD` is the source of the data. -/
def execMstReg (cq : Query) (rd rs ri : RegNum) (s : State) : Host.Outcome State Fault Refusal :=
  conditionally cq s (s.store (effectiveAddress (s.readReg rs) (registerOperand ri s)) (s.readReg rd)).advance

/-- MST (R137), immediate format. -/
def execMstImm (cq : Query) (rd rs : RegNum) (imm : BitVec 16) (s : State) : Host.Outcome State Fault Refusal :=
  conditionally cq s (s.store (effectiveAddress (s.readReg rs) (immediate16 imm)) (s.readReg rd)).advance

end Sys2Proof.Machine
end

