-- ==== Sys2Proof/Machine/SetCompareLink.lean ====
section
/-! DEFINITION. The meanings of STL, CMP and LNK (44_set_compare_link.md). -/

namespace Sys2Proof.Machine

/-- STL, `$RD <- RI20`, all 32 bits (R146), register format. -/
def execStlReg (cq : Query) (rd ri : RegNum) (s : State) : Host.Outcome State Fault Refusal :=
  writeResult cq rd (registerOperand ri s) s

/-- STL (R146), immediate format. -/
def execStlImm (cq : Query) (rd : RegNum) (imm : BitVec 20) (s : State) : Host.Outcome State Fault Refusal :=
  writeResult cq rd (immediate20 imm) s

/-- CMP, `$CR <- $RD ? RI20` (R150), register format. The only writer of `$CR` (R151). -/
def execCmpReg (cq : Query) (rd ri : RegNum) (s : State) : Host.Outcome State Fault Refusal :=
  conditionally cq s (s.setCr (compareSigned (s.readReg rd) (registerOperand ri s))).advance

/-- CMP (R150), immediate format. -/
def execCmpImm (cq : Query) (rd : RegNum) (imm : BitVec 20) (s : State) : Host.Outcome State Fault Refusal :=
  conditionally cq s (s.setCr (compareSigned (s.readReg rd) (immediate20 imm))).advance

/-- LNK, `$RD <- sext_24($PC) + RI20`, with `$PC` this instruction's own address (R153), register format. -/
def execLnkReg (cq : Query) (rd ri : RegNum) (s : State) : Host.Outcome State Fault Refusal :=
  writeResult cq rd (pcOperand s + registerOperand ri s) s

/-- LNK (R153), immediate format. -/
def execLnkImm (cq : Query) (rd : RegNum) (imm : BitVec 20) (s : State) : Host.Outcome State Fault Refusal :=
  writeResult cq rd (pcOperand s + immediate20 imm) s

end Sys2Proof.Machine
end

