-- ==== Sys2Proof/Machine/ShiftBitwise.lean ====
section
/-! DEFINITION. The meanings of SHL, SHR, AND, IOR, XOR and STU (41_shift_and_bitwise.md). -/

namespace Sys2Proof.Machine

/-- SHL, `$RD <- $RS << RI16[4:0]` (R106), register format. -/
def execShlReg (cq : Query) (rd rs ri : RegNum) (s : State) : Host.Outcome State Fault Refusal :=
  writeResult cq rd (shiftLeft (s.readReg rs) (registerOperand ri s)) s

/-- SHL, `$RD <- $RS << RI16[4:0]` (R106), immediate format. -/
def execShlImm (cq : Query) (rd rs : RegNum) (imm : BitVec 16) (s : State) : Host.Outcome State Fault Refusal :=
  writeResult cq rd (shiftLeft (s.readReg rs) (immediate16 imm)) s

/-- SHR, `$RD <- $RS >> RI16[4:0]` (R107), register format. -/
def execShrReg (cq : Query) (rd rs ri : RegNum) (s : State) : Host.Outcome State Fault Refusal :=
  writeResult cq rd (shiftRight (s.readReg rs) (registerOperand ri s)) s

/-- SHR, `$RD <- $RS >> RI16[4:0]` (R107), immediate format. -/
def execShrImm (cq : Query) (rd rs : RegNum) (imm : BitVec 16) (s : State) : Host.Outcome State Fault Refusal :=
  writeResult cq rd (shiftRight (s.readReg rs) (immediate16 imm)) s

/-- AND, `$RD <- $RS & RI16` (R108), register format. -/
def execAndReg (cq : Query) (rd rs ri : RegNum) (s : State) : Host.Outcome State Fault Refusal :=
  writeResult cq rd (bitAnd (s.readReg rs) (registerOperand ri s)) s

/-- AND, `$RD <- $RS & RI16` (R108), immediate format. -/
def execAndImm (cq : Query) (rd rs : RegNum) (imm : BitVec 16) (s : State) : Host.Outcome State Fault Refusal :=
  writeResult cq rd (bitAnd (s.readReg rs) (immediate16 imm)) s

/-- IOR, `$RD <- $RS | RI16` (R109), register format. -/
def execIorReg (cq : Query) (rd rs ri : RegNum) (s : State) : Host.Outcome State Fault Refusal :=
  writeResult cq rd (bitOr (s.readReg rs) (registerOperand ri s)) s

/-- IOR, `$RD <- $RS | RI16` (R109), immediate format. -/
def execIorImm (cq : Query) (rd rs : RegNum) (imm : BitVec 16) (s : State) : Host.Outcome State Fault Refusal :=
  writeResult cq rd (bitOr (s.readReg rs) (immediate16 imm)) s

/-- XOR, `$RD <- $RS ^ RI16` (R110), register format. -/
def execXorReg (cq : Query) (rd rs ri : RegNum) (s : State) : Host.Outcome State Fault Refusal :=
  writeResult cq rd (bitXor (s.readReg rs) (registerOperand ri s)) s

/-- XOR, `$RD <- $RS ^ RI16` (R110), immediate format. -/
def execXorImm (cq : Query) (rd rs : RegNum) (imm : BitVec 16) (s : State) : Host.Outcome State Fault Refusal :=
  writeResult cq rd (bitXor (s.readReg rs) (immediate16 imm)) s

/-- STU, the register-immediate's low half above the low half of `$RS` (R111), register format. -/
def execStuReg (cq : Query) (rd rs ri : RegNum) (s : State) : Host.Outcome State Fault Refusal :=
  writeResult cq rd (setUpper (s.readReg rs) (registerOperand ri s)) s

/-- STU, the register-immediate's low half above the low half of `$RS` (R111), immediate format. -/
def execStuImm (cq : Query) (rd rs : RegNum) (imm : BitVec 16) (s : State) : Host.Outcome State Fault Refusal :=
  writeResult cq rd (setUpper (s.readReg rs) (immediate16 imm)) s

end Sys2Proof.Machine
end

