-- ==== Sys2Proof/Machine/Dispatch.lean ====
section
/-! DEFINITION. The dispatch of an instruction to its meaning: one arm per constructor of Instr. -/

namespace Sys2Proof.Machine

def exec (i : Instr) (s : State) : Host.Outcome State Fault Refusal :=
  match i with
  | .shlReg cq rd rs ri => Sys2Proof.Machine.execShlReg cq rd rs ri s
  | .shlImm cq rd rs imm => Sys2Proof.Machine.execShlImm cq rd rs imm s
  | .shrReg cq rd rs ri => Sys2Proof.Machine.execShrReg cq rd rs ri s
  | .shrImm cq rd rs imm => Sys2Proof.Machine.execShrImm cq rd rs imm s
  | .andReg cq rd rs ri => Sys2Proof.Machine.execAndReg cq rd rs ri s
  | .andImm cq rd rs imm => Sys2Proof.Machine.execAndImm cq rd rs imm s
  | .iorReg cq rd rs ri => Sys2Proof.Machine.execIorReg cq rd rs ri s
  | .iorImm cq rd rs imm => Sys2Proof.Machine.execIorImm cq rd rs imm s
  | .xorReg cq rd rs ri => Sys2Proof.Machine.execXorReg cq rd rs ri s
  | .xorImm cq rd rs imm => Sys2Proof.Machine.execXorImm cq rd rs imm s
  | .stuReg cq rd rs ri => Sys2Proof.Machine.execStuReg cq rd rs ri s
  | .stuImm cq rd rs imm => Sys2Proof.Machine.execStuImm cq rd rs imm s
  | .mulReg cq rd rs ri => Sys2Proof.Machine.execMulReg cq rd rs ri s
  | .mulImm cq rd rs imm => Sys2Proof.Machine.execMulImm cq rd rs imm s
  | .divReg cq rd rs ri => Sys2Proof.Machine.execDivReg cq rd rs ri s
  | .divImm cq rd rs imm => Sys2Proof.Machine.execDivImm cq rd rs imm s
  | .subReg cq rd rs ri => Sys2Proof.Machine.execSubReg cq rd rs ri s
  | .subImm cq rd rs imm => Sys2Proof.Machine.execSubImm cq rd rs imm s
  | .addReg cq rd rs ri => Sys2Proof.Machine.execAddReg cq rd rs ri s
  | .addImm cq rd rs imm => Sys2Proof.Machine.execAddImm cq rd rs imm s
  | .mldReg cq rd rs ri => Sys2Proof.Machine.execMldReg cq rd rs ri s
  | .mldImm cq rd rs imm => Sys2Proof.Machine.execMldImm cq rd rs imm s
  | .mstReg cq rd rs ri => Sys2Proof.Machine.execMstReg cq rd rs ri s
  | .mstImm cq rd rs imm => Sys2Proof.Machine.execMstImm cq rd rs imm s
  | .stlReg cq rd ri => Sys2Proof.Machine.execStlReg cq rd ri s
  | .stlImm cq rd imm => Sys2Proof.Machine.execStlImm cq rd imm s
  | .cmpReg cq rd ri => Sys2Proof.Machine.execCmpReg cq rd ri s
  | .cmpImm cq rd imm => Sys2Proof.Machine.execCmpImm cq rd imm s
  | .lnkReg cq rd ri => Sys2Proof.Machine.execLnkReg cq rd ri s
  | .lnkImm cq rd imm => Sys2Proof.Machine.execLnkImm cq rd imm s
  | .jmpReg cq ri => Sys2Proof.Machine.execJmpReg cq ri s
  | .jmpImm cq imm => Sys2Proof.Machine.execJmpImm cq imm s

end Sys2Proof.Machine
end

