-- ==== Sys2Proof/Machine/Step.lean ====
section
/-! DEFINITION. One step of the machine: fetch, decode, and the meaning of the instruction, which tests the query, executes or
skips, and advances `pc` (40_execution_cycle.md R90). -/

namespace Sys2Proof.Machine

/-- One step. Fetch cannot fail and every word decodes (40_execution_cycle.md R92), so the step only runs the meaning. -/
def step (s : State) : Host.Outcome State Fault Refusal := exec (decode s.fetchWord) s

/-- The state with the instruction `w` of `nbits` bits (bits above `nbits` zero) placed where the next step fetches: at `pc` of
instruction memory. It stands for the host's load of a program (70_reset_and_hazards.md R239, R248; notes/assumptions/5.md). -/
def State.withFetchWord (s : State) (nbits w : Nat) : State :=
  { s with imem := Memory.write s.imem s.pc (BitVec.ofNat 32 (w % 2 ^ nbits)) }

end Sys2Proof.Machine
end

