-- ==== Sys2Proof/Machine/AsmSyntax.lean ====
section
/-! DEFINITION. The terms of assembly text (46_assembler_and_pseudo.md): mnemonics, operands, lines, and the reasons the
assembler rejects a program. The hardware never sees any of these (R185). -/

namespace Sys2Proof.Machine

/-- The 3-ARG mnemonics (30_encoding.md R70). -/
inductive ThreeArg where
  | shl | shr | and | ior | xor | stu | mul | div | sub | add | mld | mst
  deriving DecidableEq, Repr

/-- The 2-ARG mnemonics (30_encoding.md R70). -/
inductive TwoArg where
  | stl | cmp | lnk
  deriving DecidableEq, Repr

/-- All mnemonics: the 16 instructions and the 12 pseudo-instructions (R4 of 00_scope.md, R185). -/
inductive Mnemonic where
  | three (m : ThreeArg) | two (m : TwoArg) | jmp
  | nop | halt | jal | rtn | nil | mov | sli | sui | sti | psh | top | pop
  deriving DecidableEq, Repr

/-- A register-immediate operand that fits its slot: `$RI`, or the `n` bits of the immediate field (30_encoding.md R68). -/
inductive RegImm (n : Nat) where
  | reg (ri : RegNum)
  | imm (v : BitVec n)
  deriving DecidableEq, Repr

/-- A label's name, in lower case: labels are compared without regard to case (R170). -/
abbrev LabelName := List Char

/-- An operand as written: a register, a number constant, or a reference `@NAME` (R173, R174, R179). -/
inductive Operand where
  | reg (r : RegNum)
  | num (v : Int)
  | label (name : LabelName)
  deriving DecidableEq, Repr

/-- A mnemonic with its query, absent when not written (R175), and its operands in text order (R177). -/
structure Statement where
  mnemonic : Mnemonic
  query : Option Query
  operands : List Operand
  deriving DecidableEq, Repr

/-- A line: an optional label definition and an optional instruction; the comment is gone (R176). -/
structure Line where
  label : Option LabelName
  statement : Option Statement
  deriving DecidableEq, Repr

/-- Why the assembler rejects a program (R178, R182, R183; 93_implementation_defined.md U11). -/
inductive AsmError where
  /-- A token where a mnemonic must stand is none. -/
  | unknownMnemonic
  /-- A token that begins with `$` names no register. -/
  | unknownRegister
  /-- A token that begins with `?` names no query. -/
  | unknownQuery
  /-- A token that should be a number constant is none. -/
  | badNumber
  /-- A label definition or reference with an empty name. -/
  | emptyLabel
  /-- A wrong number of operands, or one of a kind the position does not take. -/
  | badOperands
  /-- A label in a 3-ARG instruction (R182). -/
  | labelInThreeArg
  /-- A reference to a label that is never defined. -/
  | undefinedLabel
  /-- A label defined twice. -/
  | duplicateLabel
  /-- "a value is too wide to fit into its slot" (R183). -/
  | tooWide
  /-- The words do not fit the 2^24 words of instruction memory. -/
  | programTooLong
  deriving DecidableEq, Repr

end Sys2Proof.Machine
end

