-- ==== Sys2Proof/Machine/Pseudo.lean ====
section
/-! DEFINITION. The instruction of each mnemonic for a register-immediate operand of either format, and the expansions of the
12 pseudo-instructions (46_assembler_and_pseudo.md R185 to R198). The query of a pseudo-instruction is copied to every
instruction of its expansion (R185). Registers: `$rv` 0, `$ra` 1, `$sp` 15 (10_state.md R22). -/

namespace Sys2Proof.Machine

/-- A 3-ARG instruction in the format its last operand chooses. -/
def threeArg (m : ThreeArg) (cq : Query) (rd rs : RegNum) (o : RegImm 16) : Instr :=
  match m, o with
  | .shl, .reg ri => .shlReg cq rd rs ri
  | .shl, .imm v => .shlImm cq rd rs v
  | .shr, .reg ri => .shrReg cq rd rs ri
  | .shr, .imm v => .shrImm cq rd rs v
  | .and, .reg ri => .andReg cq rd rs ri
  | .and, .imm v => .andImm cq rd rs v
  | .ior, .reg ri => .iorReg cq rd rs ri
  | .ior, .imm v => .iorImm cq rd rs v
  | .xor, .reg ri => .xorReg cq rd rs ri
  | .xor, .imm v => .xorImm cq rd rs v
  | .stu, .reg ri => .stuReg cq rd rs ri
  | .stu, .imm v => .stuImm cq rd rs v
  | .mul, .reg ri => .mulReg cq rd rs ri
  | .mul, .imm v => .mulImm cq rd rs v
  | .div, .reg ri => .divReg cq rd rs ri
  | .div, .imm v => .divImm cq rd rs v
  | .sub, .reg ri => .subReg cq rd rs ri
  | .sub, .imm v => .subImm cq rd rs v
  | .add, .reg ri => .addReg cq rd rs ri
  | .add, .imm v => .addImm cq rd rs v
  | .mld, .reg ri => .mldReg cq rd rs ri
  | .mld, .imm v => .mldImm cq rd rs v
  | .mst, .reg ri => .mstReg cq rd rs ri
  | .mst, .imm v => .mstImm cq rd rs v

/-- A 2-ARG instruction in the format its last operand chooses. -/
def twoArg (m : TwoArg) (cq : Query) (rd : RegNum) (o : RegImm 20) : Instr :=
  match m, o with
  | .stl, .reg ri => .stlReg cq rd ri
  | .stl, .imm v => .stlImm cq rd v
  | .cmp, .reg ri => .cmpReg cq rd ri
  | .cmp, .imm v => .cmpImm cq rd v
  | .lnk, .reg ri => .lnkReg cq rd ri
  | .lnk, .imm v => .lnkImm cq rd v

/-- A JMP in the format its operand chooses. -/
def jumpTo (cq : Query) (o : RegImm 24) : Instr :=
  match o with
  | .reg ri => .jmpReg cq ri
  | .imm v => .jmpImm cq v

/-- NOP: `SHL ?NO $rv $rv 0` (R186). -/
def expandNop : List Instr := [.shlImm queryNo 0#4 0#4 0#16]

/-- END: a JMP to its own address `self` (R187). -/
def expandEnd (cq : Query) (self : Addr) : List Instr := [.jmpImm cq self]

/-- JAL: `LNK ?CQ $ra 2`, `JMP ?CQ RI24` (R188). -/
def expandJal (cq : Query) (target : RegImm 24) : List Instr := [.lnkImm cq 1#4 2#20, jumpTo cq target]

/-- RTN: `STL ?CQ $rv RI20`, `JMP ?CQ $ra` (R189). -/
def expandRtn (cq : Query) (value : RegImm 20) : List Instr := [twoArg .stl cq 0#4 value, .jmpReg cq 1#4]

/-- NIL: `STL ?CQ $RI 0`, the register in the `$RD` field (R190). -/
def expandNil (cq : Query) (r : RegNum) : List Instr := [.stlImm cq r 0#20]

/-- MOV: an alias of STL (R191). -/
def expandMov (cq : Query) (rd : RegNum) (o : RegImm 20) : List Instr := [twoArg .stl cq rd o]

/-- SLI: `STL ?CQ $RD IMM32[15:0]`, the slice as the number 0 to 65535 (R192, D26, notes/assumptions/16.md). -/
def expandSli (cq : Query) (rd : RegNum) (imm32 : Word) : List Instr :=
  [.stlImm cq rd ((imm32.extractLsb' 0 16).setWidth 20)]

/-- SUI: `STU ?CQ $RD $RS IMM32[31:16]` (R193). -/
def expandSui (cq : Query) (rd rs : RegNum) (imm32 : Word) : List Instr :=
  [.stuImm cq rd rs (imm32.extractLsb' 16 16)]

/-- STI: SLI, then SUI with `$RD` twice (R194). -/
def expandSti (cq : Query) (rd : RegNum) (imm32 : Word) : List Instr :=
  expandSli cq rd imm32 ++ expandSui cq rd rd imm32

/-- PSH: `ADD ?CQ $sp $sp -1`, `MST ?CQ $RD 0($sp)` (R195). -/
def expandPsh (cq : Query) (rd : RegNum) : List Instr := [.addImm cq 15#4 15#4 0xFFFF#16, .mstImm cq rd 15#4 0#16]

/-- TOP: `MLD ?CQ $RD 0($sp)` (R196). -/
def expandTop (cq : Query) (rd : RegNum) : List Instr := [.mldImm cq rd 15#4 0#16]

/-- POP: `MLD ?CQ $RD 0($sp)`, `ADD ?CQ $sp $sp 1` (R197). -/
def expandPop (cq : Query) (rd : RegNum) : List Instr := [.mldImm cq rd 15#4 0#16, .addImm cq 15#4 15#4 1#16]

end Sys2Proof.Machine
end

