-- ==== Sys2Proof/Machine/AsmText.lean ====
section
/-! DEFINITION. From characters to lines of assembly (46_assembler_and_pseudo.md R170 to R179). The text is in lower case
already: the assembler lowers it first, since "Ida 2 is entirely case-insensitive" (R170). Where the source shows no form,
the choices are those of R171, R173, R176, R178 (D21) and notes/assumptions/15.md. -/

namespace Sys2Proof.Machine

/-! ### Characters, lines, tokens -/

/-- "Spaces, tabs, commas, and parentheses can be used to delimit instruction arguments." (R171) -/
def isDelimiter (c : Char) : Bool := c == ' ' || c == '\t' || c == ',' || c == '(' || c == ')'

/-- Cut a text where `sep` holds; `piece` holds the characters of the piece so far, last first. -/
def splitWhere (sep : Char → Bool) (piece : List Char) : List Char → List (List Char)
  | [] => [piece.reverse]
  | c :: cs => if sep c then piece.reverse :: splitWhere sep [] cs else splitWhere sep (c :: piece) cs

/-- The lines of a text. -/
def splitLines (text : List Char) : List (List Char) := splitWhere (· == '\n') [] text

/-- A line without its comment: from the number sign to the end of the line (R172). -/
def stripComment (line : List Char) : List Char := line.takeWhile (· != '#')

/-- The tokens of a line: a run of delimiters separates two tokens and means nothing more (R171). -/
def tokens (line : List Char) : List (List Char) := (splitWhere isDelimiter [] line).filter (· != [])

/-- The value of a name in a table of names. -/
def named {α : Type} (table : List (String × α)) (token : List Char) : Option α :=
  match table with
  | [] => none
  | (n, v) :: rest => if n.toList = token then some v else named rest token

/-! ### Number constants (R173) -/

/-- The value of a digit, letters as hexadecimal digits. -/
def digitValue (c : Char) : Option Nat :=
  if '0' ≤ c ∧ c ≤ '9' then some (c.toNat - '0'.toNat)
  else if 'a' ≤ c ∧ c ≤ 'f' then some (c.toNat - 'a'.toNat + 10)
  else none

/-- The digits of a number in a radix, with the value of the digits before them. -/
def parseDigits (radix : Nat) (value : Nat) : List Char → Option Nat
  | [] => some value
  | c :: cs =>
    match digitValue c with
    | some d => if d < radix then parseDigits radix (value * radix + d) cs else none
    | none => none

/-- A number without sign: `0b…`, `0x…` or decimal, at least one digit. -/
def parseUnsigned : List Char → Option Nat
  | [] => none
  | ['0', 'b'] => none
  | ['0', 'x'] => none
  | '0' :: 'b' :: ds => parseDigits 2 0 ds
  | '0' :: 'x' :: ds => parseDigits 16 0 ds
  | ds => parseDigits 10 0 ds

/-- A number constant, a leading minus sign negating any radix. -/
def parseNumber : List Char → Option Int
  | '-' :: ds => (parseUnsigned ds).map fun n => -(n : Int)
  | ds => (parseUnsigned ds).map fun n => (n : Int)

/-! ### Registers, queries, mnemonics -/

/-- The register names without their `$` (10_state.md R22). -/
def registerNames : List (String × RegNum) :=
  [("rv", 0), ("ra", 1), ("a0", 2), ("a1", 3), ("a2", 4), ("a3", 5), ("t0", 6), ("t1", 7),
   ("t2", 8), ("t3", 9), ("t4", 10), ("t5", 11), ("t6", 12), ("t7", 13), ("t8", 14), ("sp", 15)]

/-- The register numbers without their `$`: decimal with two digits (R174). -/
def registerNumbers : List (String × RegNum) :=
  [("00", 0), ("01", 1), ("02", 2), ("03", 3), ("04", 4), ("05", 5), ("06", 6), ("07", 7),
   ("08", 8), ("09", 9), ("10", 10), ("11", 11), ("12", 12), ("13", 13), ("14", 14), ("15", 15)]

/-- The query names and numbers without their `?` (R175, 30_encoding.md R78). -/
def queryNames : List (String × Query) :=
  [("no", queryNo), ("gt", queryGt), ("eq", queryEq), ("ge", queryGe),
   ("lt", queryLt), ("ne", queryNe), ("le", queryLe), ("ok", queryOk),
   ("0", queryNo), ("1", queryGt), ("2", queryEq), ("3", queryGe),
   ("4", queryLt), ("5", queryNe), ("6", queryLe), ("7", queryOk)]

/-- The mnemonics (30_encoding.md R70; 46_assembler_and_pseudo.md R186 to R197). -/
def mnemonicNames : List (String × Mnemonic) :=
  [("shl", .three .shl), ("shr", .three .shr), ("and", .three .and), ("ior", .three .ior),
   ("xor", .three .xor), ("stu", .three .stu), ("mul", .three .mul), ("div", .three .div),
   ("sub", .three .sub), ("add", .three .add), ("mld", .three .mld), ("mst", .three .mst),
   ("stl", .two .stl), ("cmp", .two .cmp), ("lnk", .two .lnk), ("jmp", .jmp)] ++
  [("nop", .nop), ("end", .halt), ("jal", .jal), ("rtn", .rtn), ("nil", .nil), ("mov", .mov),
   ("sli", .sli), ("sui", .sui), ("sti", .sti), ("psh", .psh), ("top", .top), ("pop", .pop)]

/-- An operand: a register, a label reference or a number, told apart by the first character (R174, R179). -/
def parseOperand (token : List Char) : Except AsmError Operand :=
  match token with
  | '$' :: name =>
    match named (registerNames ++ registerNumbers) name with
    | some r => .ok (.reg r)
    | none => .error .unknownRegister
  | '@' :: name => if name = [] then .error .emptyLabel else .ok (.label name)
  | _ =>
    match parseNumber token with
    | some v => .ok (.num v)
    | none => .error .badNumber

/-- Operands in text order. -/
def parseOperands : List (List Char) → Except AsmError (List Operand)
  | [] => .ok []
  | t :: ts => do
    let o ← parseOperand t
    let os ← parseOperands ts
    return o :: os

/-- Whether a query may be written after the mnemonic: NOP takes none (R186). -/
def takesQuery (m : Mnemonic) : Bool := decide (m ≠ .nop)

/-- The tokens after the mnemonic: the query, when present, comes first (R175). -/
def parseArguments (m : Mnemonic) : List (List Char) → Except AsmError Statement
  | ('?' :: q) :: ts =>
    match named queryNames q with
    | some cq => if takesQuery m then do return ⟨m, some cq, ← parseOperands ts⟩ else .error .badOperands
    | none => .error .unknownQuery
  | ts => do return ⟨m, none, ← parseOperands ts⟩

/-- An instruction: a mnemonic and its arguments. -/
def parseStatement : List (List Char) → Except AsmError (Option Statement)
  | [] => .ok none
  | t :: ts =>
    match named mnemonicNames t with
    | some m => do return some (← parseArguments m ts)
    | none => .error .unknownMnemonic

/-- A line of tokens: a first token that ends in a colon is a label definition (R176). -/
def parseTokens (ts : List (List Char)) : Except AsmError Line :=
  match ts with
  | [] => .ok ⟨none, none⟩
  | t :: rest =>
    match t.reverse with
    | ':' :: name =>
      if name = [] then .error .emptyLabel else do return ⟨some name.reverse, ← parseStatement rest⟩
    | _ => do return ⟨none, ← parseStatement (t :: rest)⟩

/-- One line of text. -/
def parseLine (line : List Char) : Except AsmError Line := parseTokens (tokens (stripComment line))

/-- Lines of text. -/
def parseLines : List (List Char) → Except AsmError (List Line)
  | [] => .ok []
  | l :: ls => do
    let first ← parseLine l
    let rest ← parseLines ls
    return first :: rest

end Sys2Proof.Machine
end

