-- ==== Sys2Proof/Machine/Assembler.lean ====
section
/-! DEFINITION. From lines to instruction words: range check, labels, addresses, expansion (46_assembler_and_pseudo.md R177 to
R199). A malformed program is rejected as a whole and no words exist (R178). -/

namespace Sys2Proof.Machine

/-! ### Slots (R183) -/

/-- A value fits an N-bit slot when it can be written in N bits, unsigned or as two's complement (R183; the range is the
spec's decision D14, notes/assumptions/16.md). -/
def fitsSlot (n : Nat) (v : Int) : Bool := decide (-(2 : Int) ^ (n - 1) ≤ v) && decide (v ≤ (2 : Int) ^ n - 1)

/-- The field of a value: `v mod 2^N`, or an abort when the value is too wide (R183). -/
def slotField (n : Nat) (v : Int) : Except AsmError (BitVec n) :=
  if fitsSlot n v then .ok (BitVec.ofInt n v) else .error .tooWide

/-- The addresses of the labels, as far as they are known. -/
abbrev LabelTable := List (LabelName × Nat)

/-- The address of a label. -/
def labelAddress : LabelTable → LabelName → Except AsmError Nat
  | [], _ => .error .undefinedLabel
  | (n, a) :: rest, name => if n = name then .ok a else labelAddress rest name

/-- `RI16`: a label in a 3-ARG instruction is an error (R182). -/
def operand16 (o : Operand) : Except AsmError (RegImm 16) :=
  match o with
  | .reg r => .ok (.reg r)
  | .num v => (slotField 16 v).map .imm
  | .label _ => .error .labelInThreeArg

/-- `RI20`: a label is its address minus the address of the word that holds the reference (R181). -/
def operand20 (table : LabelTable) (here : Nat) (o : Operand) : Except AsmError (RegImm 20) :=
  match o with
  | .reg r => .ok (.reg r)
  | .num v => (slotField 20 v).map .imm
  | .label name => do
    let a ← labelAddress table name
    (slotField 20 ((a : Int) - (here : Int))).map .imm

/-- `RI24`: a label is its absolute address (R180). -/
def operand24 (table : LabelTable) (o : Operand) : Except AsmError (RegImm 24) :=
  match o with
  | .reg r => .ok (.reg r)
  | .num v => (slotField 24 v).map .imm
  | .label name => do
    let a ← labelAddress table name
    (slotField 24 (a : Int)).map .imm

/-- `IMM32` of SLI, SUI and STI: any 32-bit constant, or a label's absolute address extended with zeros (R185, R198). -/
def operand32 (table : LabelTable) (o : Operand) : Except AsmError Word :=
  match o with
  | .reg _ => .error .badOperands
  | .num v => slotField 32 v
  | .label name => do
    let a ← labelAddress table name
    slotField 32 (a : Int)

/-! ### Operands in text order (R177) -/

/-- SUB, MLD and MST write the register-immediate second and `$RS` third. -/
def registerImmediateSecond (m : ThreeArg) : Bool :=
  match m with
  | .sub | .mld | .mst => true
  | .shl | .shr | .and | .ior | .xor | .stu | .mul | .div | .add => false

/-- `$RD`, `$RS` and the register-immediate of a 3-ARG instruction. -/
def threeOperands (m : ThreeArg) (os : List Operand) : Option (RegNum × RegNum × Operand) :=
  match registerImmediateSecond m, os with
  | true, [.reg rd, o, .reg rs] => some (rd, rs, o)
  | false, [.reg rd, .reg rs, o] => some (rd, rs, o)
  | _, _ => none

/-- The instructions of a statement whose first word has address `here`. -/
def expandStatement (table : LabelTable) (here : Nat) (st : Statement) : Except AsmError (List Instr) :=
  let cq := st.query.getD queryOk
  match st.mnemonic, st.operands with
  | .three m, os =>
    match threeOperands m os with
    | some (rd, rs, o) => do return [threeArg m cq rd rs (← operand16 o)]
    | none => .error .badOperands
  | .two m, [.reg rd, o] => do return [twoArg m cq rd (← operand20 table here o)]
  | .jmp, [o] => do return [jumpTo cq (← operand24 table o)]
  | .nop, [] => .ok expandNop
  | .halt, [] => .ok (expandEnd cq (BitVec.ofNat 24 here))
  | .jal, [o] => do return expandJal cq (← operand24 table o)
  | .rtn, [o] => do return expandRtn cq (← operand20 table here o)
  | .nil, [.reg r] => .ok (expandNil cq r)
  | .mov, [.reg rd, o] => do return expandMov cq rd (← operand20 table here o)
  | .sli, [.reg rd, o] => do return expandSli cq rd (← operand32 table o)
  | .sui, [.reg rd, .reg rs, o] => do return expandSui cq rd rs (← operand32 table o)
  | .sti, [.reg rd, o] => do return expandSti cq rd (← operand32 table o)
  | .psh, [.reg r] => .ok (expandPsh cq r)
  | .top, [.reg r] => .ok (expandTop cq r)
  | .pop, [.reg r] => .ok (expandPop cq r)
  | _, _ => .error .badOperands

/-! ### Addresses and labels (R176, R184, R199) -/

/-- The number of words of a mnemonic (R199). -/
def wordCount (m : Mnemonic) : Nat :=
  match m with
  | .jal | .rtn | .sti | .psh | .pop => 2
  | .three _ | .two _ | .jmp | .nop | .halt | .nil | .mov | .sli | .sui | .top => 1

/-- The number of words of a line. -/
def lineWords (l : Line) : Nat := (l.statement.map fun st => wordCount st.mnemonic).getD 0

/-- The number of words of a program. -/
def programWords (ls : List Line) : Nat := (ls.map lineWords).sum

/-- A label is defined in the lines. -/
def definesLabel (name : LabelName) (ls : List Line) : Bool := ls.any fun l => l.label == some name

/-- The label table of lines placed from address `here` upward: a label names the address of the next word emitted (R176). A
label defined twice is an error (R178). -/
def labelTable (here : Nat) : List Line → Except AsmError LabelTable
  | [] => .ok []
  | l :: ls => do
    let rest ← labelTable (here + lineWords l) ls
    match l.label with
    | none => return rest
    | some name => if definesLabel name ls then .error .duplicateLabel else return (name, here) :: rest

/-- The instructions of one line whose first word has address `here`. -/
def expandLine (table : LabelTable) (here : Nat) (l : Line) : Except AsmError (List Instr) :=
  match l.statement with
  | none => .ok []
  | some st => expandStatement table here st

/-- The instructions of lines placed from address `here` upward, in source order (R184). -/
def expandLines (table : LabelTable) (here : Nat) : List Line → Except AsmError (List Instr)
  | [] => .ok []
  | l :: ls => do
    let first ← expandLine table here l
    let rest ← expandLines table (here + lineWords l) ls
    return first ++ rest

/-- The words of parsed lines, the first at address `base`. -/
def assembleLines (base : Addr) (ls : List Line) : Except AsmError (List Word) := do
  if 2 ^ 24 < base.toNat + programWords ls then .error .programTooLong
  else
    let table ← labelTable base.toNat ls
    let is ← expandLines table base.toNat ls
    return is.map encode

/-- The assembler: the words of a text, to be placed from address `base` upward (R184), or the reason it is rejected. Case is
removed first (R170), for the letters A to Z. DESIGN CHOICE: a letter outside ASCII in a label name, which R179 allows, is not
folded, since the spec states no character set; notes/assumptions/15.md. -/
def assemble (base : Addr) (text : List Char) : Except AsmError (List Word) := do
  let ls ← parseLines (splitLines (text.map Char.toLower))
  assembleLines base ls

end Sys2Proof.Machine
end

