-- ==== Sys2Proof/Machine/Launch.lean ====
section
/-! DEFINITION. What the host does before a run (70_reset_and_hazards.md R239, R240, R243, R248): it places the assembled program
in instruction memory from `RESET_PC` upward, may place data in data memory and may set the registers. During the run it does
nothing. -/

namespace Sys2Proof.Machine

/-- The state at the start of an assembled program: the assembler's base address and `RESET_PC` are the same parameter
(70_reset_and_hazards.md R237), so the first word assembled is the first executed. -/
def launchProgram (resetPc : Addr) (resetX : Vector Word 16) (dmem : Memory) (text : List Char) : Except AsmError State := do
  let ws ← assemble resetPc text
  return State.launch resetPc resetX (Memory.writeFrom [] resetPc ws) dmem

/-! ### Words in a host's byte file (20_memory.md R48, notes/assumptions/14.md)

`WORD_FILE_BYTE_ORDER` is left open by the spec and is an argument here; no program can observe it. -/

/-- The byte order of a word file. -/
inductive ByteOrder where
  | littleEndian
  | bigEndian
  deriving DecidableEq, Repr

/-- The word of four bytes in file order. -/
def wordOfBytes (order : ByteOrder) (b0 b1 b2 b3 : BitVec 8) : Word :=
  match order with
  | .littleEndian => b3 ++ b2 ++ b1 ++ b0
  | .bigEndian => b0 ++ b1 ++ b2 ++ b3

/-- The words of a byte file; none when the file does not hold whole words. -/
def wordsOfFile (order : ByteOrder) : List (BitVec 8) → Option (List Word)
  | [] => some []
  | b0 :: b1 :: b2 :: b3 :: rest => (wordsOfFile order rest).map (wordOfBytes order b0 b1 b2 b3 :: ·)
  | _ => none

/-- The bytes of a word in file order. -/
def bytesOfWord (order : ByteOrder) (w : Word) : List (BitVec 8) :=
  match order with
  | .littleEndian => [w.extractLsb' 0 8, w.extractLsb' 8 8, w.extractLsb' 16 8, w.extractLsb' 24 8]
  | .bigEndian => [w.extractLsb' 24 8, w.extractLsb' 16 8, w.extractLsb' 8 8, w.extractLsb' 0 8]

end Sys2Proof.Machine
end

