-- ==== Sys2Proof/Machine/Observe.lean ====
section
/-! DEFINITION. Observations of a state that are not state: the end of a run, and the ALU's "error" signals, which have no
architectural effect and are latched nowhere (60_exceptions.md R213). -/

namespace Sys2Proof.Machine

/-- The target of a JMP instruction and nothing for the others (45_jump.md R161). -/
def jumpTargetOf (i : Instr) (s : State) : Option Addr :=
  match i with
  | .jmpReg _ ri => some (jumpTarget (registerOperand ri s))
  | .jmpImm _ imm => some (jumpTarget (immediate24 imm))
  | _ => none

/-- The end of a run: the instruction at `pc` is a JMP whose query passes and whose target is `pc`
(70_reset_and_hazards.md R245; the convention is the spec's decision D13, notes/assumptions/21.md). -/
def isTerminal (s : State) : Bool :=
  queryPasses (decode s.fetchWord).query s.cr && jumpTargetOf (decode s.fetchWord) s == some s.pc

/-- The signed sum of two words lies outside -2^31 to 2^31 - 1. PRESUMED: the source does not define overflow; this is G2 of
93_implementation_defined.md, notes/assumptions/9.md. -/
def sumOverflows (a b : Word) : Bool :=
  decide (a.toInt + b.toInt < -2 ^ 31) || decide (2 ^ 31 ≤ a.toInt + b.toInt)

/-- The signed difference of two words lies outside -2^31 to 2^31 - 1 (G2, notes/assumptions/9.md). -/
def differenceOverflows (a b : Word) : Bool :=
  decide (a.toInt - b.toInt < -2 ^ 31) || decide (2 ^ 31 ≤ a.toInt - b.toInt)

/-- The ALU signals an error while this instruction executes (42_arithmetic.md R127, 60_exceptions.md R213): ADD or SUB on
overflow, and DIV never, because it substitutes the divisor 1. A skipped instruction signals nothing (60_exceptions.md R216). -/
def aluSignal (i : Instr) (s : State) : Bool :=
  queryPasses i.query s.cr &&
  match i with
  | .addReg _ _ rs ri => sumOverflows (s.readReg rs) (registerOperand ri s)
  | .addImm _ _ rs imm => sumOverflows (s.readReg rs) (immediate16 imm)
  | .subReg _ _ rs ri => differenceOverflows (registerOperand ri s) (s.readReg rs)
  | .subImm _ _ rs imm => differenceOverflows (immediate16 imm) (s.readReg rs)
  | _ => false

end Sys2Proof.Machine
end

