-- ==== Sys2Proof/Safety.lean ====
section
/-! DEFINITION. What counts as a safe run, in the terms claims use. The machine itself never stops and nothing it does is an
error (60_exceptions.md R210, 70_reset_and_hazards.md R244); a claim that must also hold on a chip that stops on the ALU's
signal takes `noSignal` as a premise (93_implementation_defined.md U2). -/

namespace Sys2Proof.Safety

open Sys2Proof.Machine

/-- `k` steps from `s` lead to `t`, with no fault and no refusal on the way. -/
def Reaches (k : Nat) (s t : State) : Prop := Host.Core.run core k s = .next t

/-- The first `k` steps from `s` are all next states and none of them raises the ALU's error signal. -/
def noSignal : Nat → State → Bool
  | 0, _ => true
  | k + 1, s =>
    !aluSignal (decode s.fetchWord) s &&
    match step s with
    | .next t => noSignal k t
    | .fault _ => false
    | .refused _ => false

/-- The program that starts in `s` ends after `k` steps in the terminal state `t` (70_reset_and_hazards.md R245). -/
def EndsIn (k : Nat) (s t : State) : Prop := Reaches k s t ∧ isTerminal t = true

end Sys2Proof.Safety
end

