-- ==== Sys2Proof/Certificates/Slice0/Obligations.lean ====
section
/-! DEFINITION. The statements for the provers: `Obligations.<Name>`, and the words they are stated in (`Claims`). -/

namespace Sys2Proof.Claims

open Sys2Proof.Machine

/-! ### The words of the statements -/

/-- The query of an instruction and `$CR` have a bit in common, so the instruction executes (40_execution_cycle.md R93). On
the four values of `$CR` no run reaches this is the spec's own decision D16 (notes/assumptions/10.md). -/
abbrev Executes (cq : Query) (s : State) : Prop := cq &&& s.cr ≠ 0b000#3

/-- Every word of data memory and of instruction memory reads as before. -/
def KeepsMemories (s t : State) : Prop :=
  (∀ a, t.load a = s.load a) ∧ ∀ a, Memory.read t.imem a = Memory.read s.imem a

/-- The effect of an instruction whose destination is `x[rd]`: the value, and its frame (30_encoding.md R79). -/
def ResultWritten (rd : RegNum) (v : Word) (s t : State) : Prop :=
  t.readReg rd = v ∧ (∀ r, r ≠ rd → t.readReg r = s.readReg r) ∧ t.cr = s.cr ∧ KeepsMemories s t

/-- A 3-ARG instruction in both formats: whenever it executes it completes and writes `value $RS RI16` to `$RD`, the operand
being all of `x[$RI]` or the sign-extended immediate (30_encoding.md R68). -/
def ThreeArgResult (reg : Query → RegNum → RegNum → RegNum → Instr) (imm : Query → RegNum → RegNum → BitVec 16 → Instr)
    (value : Word → Word → Word) : Prop :=
  ∀ (cq : Query) (rd rs : RegNum) (s : State), Executes cq s →
    (∀ ri : RegNum, ∃ t, exec (reg cq rd rs ri) s = .next t ∧
      ResultWritten rd (value (s.readReg rs) (s.readReg ri)) s t) ∧
    (∀ v : BitVec 16, ∃ t, exec (imm cq rd rs v) s = .next t ∧
      ResultWritten rd (value (s.readReg rs) (v.signExtend 32)) s t)

/-- The two words of a 3-ARG instruction, field by field as its rule writes them: opcode, `?CQ`, bit 24, `$RD`, `$RS`, and
`$RI` below twelve zeros or `IMM16` (30_encoding.md R64, R67). -/
def ThreeArgEncoded (op : BitVec 4) (reg : Query → RegNum → RegNum → RegNum → Instr)
    (imm : Query → RegNum → RegNum → BitVec 16 → Instr) : Prop :=
  ∀ (cq : Query) (rd rs : RegNum),
    (∀ ri : RegNum, encode (reg cq rd rs ri) = op ++ cq ++ 0#1 ++ rd ++ rs ++ 0#12 ++ ri) ∧
    (∀ v : BitVec 16, encode (imm cq rd rs v) = op ++ cq ++ 1#1 ++ rd ++ rs ++ v)

/-- The two words of a 2-ARG instruction: opcode, `?CQ`, bit 24, `$RD`, and `$RI` below sixteen zeros or `IMM20`
(30_encoding.md R63, R66). -/
def TwoArgEncoded (op : BitVec 4) (reg : Query → RegNum → RegNum → Instr)
    (imm : Query → RegNum → BitVec 20 → Instr) : Prop :=
  ∀ (cq : Query) (rd : RegNum),
    (∀ ri : RegNum, encode (reg cq rd ri) = op ++ cq ++ 0#1 ++ rd ++ 0#16 ++ ri) ∧
    (∀ v : BitVec 20, encode (imm cq rd v) = op ++ cq ++ 1#1 ++ rd ++ v)

/-- The address MLD and MST use: the low 24 bits of the sum of base and operand (43_memory_access.md R135). -/
def address (base offset : Word) : Addr := BitVec.ofNat 24 (base.toNat + offset.toNat)

/-- `pc` is the next address. The wrap at `0xFFFFFF`, the spec's decision D3, is left out here. -/
def PcAdvances (s t : State) : Prop := s.pc.toNat + 1 < 2 ^ 24 → t.pc.toNat = s.pc.toNat + 1

/-- Each query passes in `t` exactly when its relation holds between the signed values `a` and `b` (30_encoding.md R78). -/
def QueriesTell (a b : Int) (t : State) : Prop :=
  ¬ Executes 0b000#3 t ∧ (Executes 0b001#3 t ↔ a > b) ∧ (Executes 0b010#3 t ↔ a = b) ∧ (Executes 0b011#3 t ↔ a ≥ b) ∧
  (Executes 0b100#3 t ↔ a < b) ∧ (Executes 0b101#3 t ↔ a ≠ b) ∧ (Executes 0b110#3 t ↔ a ≤ b) ∧ Executes 0b111#3 t

/-- The instruction is a CMP. -/
def isCmp : Instr → Bool
  | .cmpReg _ _ _ | .cmpImm _ _ _ => true
  | _ => false

/-- The instruction is an MLD. -/
def isMld : Instr → Bool
  | .mldReg _ _ _ _ | .mldImm _ _ _ _ => true
  | _ => false

/-- The instruction is an MST. -/
def isMst : Instr → Bool
  | .mstReg _ _ _ _ | .mstImm _ _ _ _ => true
  | _ => false

/-- The instruction is a JMP. -/
def isJmp : Instr → Bool
  | .jmpReg _ _ | .jmpImm _ _ => true
  | _ => false

/-- The general register an instruction writes, as the `x[$RD]` column of 30_encoding.md R79 marks it `W`: none for MST, CMP
and JMP. -/
def destination : Instr → Option RegNum
  | .shlReg _ rd _ _ | .shlImm _ rd _ _ | .shrReg _ rd _ _ | .shrImm _ rd _ _ => some rd
  | .andReg _ rd _ _ | .andImm _ rd _ _ | .iorReg _ rd _ _ | .iorImm _ rd _ _ => some rd
  | .xorReg _ rd _ _ | .xorImm _ rd _ _ | .stuReg _ rd _ _ | .stuImm _ rd _ _ => some rd
  | .mulReg _ rd _ _ | .mulImm _ rd _ _ | .divReg _ rd _ _ | .divImm _ rd _ _ => some rd
  | .subReg _ rd _ _ | .subImm _ rd _ _ | .addReg _ rd _ _ | .addImm _ rd _ _ => some rd
  | .mldReg _ rd _ _ | .mldImm _ rd _ _ => some rd
  | .stlReg _ rd _ | .stlImm _ rd _ | .lnkReg _ rd _ | .lnkImm _ rd _ => some rd
  | .mstReg _ _ _ _ | .mstImm _ _ _ _ | .cmpReg _ _ _ | .cmpImm _ _ _ | .jmpReg _ _ | .jmpImm _ _ => none

/-- `$CR` holds `?LT`, `?EQ` or `?GT`: what a comparison leaves (10_state.md R33). -/
def CrCompared (s : State) : Prop := s.cr = 0b100#3 ∨ s.cr = 0b010#3 ∨ s.cr = 0b001#3

/-- `$CR` holds a value some run reaches: `?OK`, or what a comparison leaves (10_state.md R33). -/
def CrLegal (s : State) : Prop := s.cr = 0b111#3 ∨ CrCompared s

/-- The words of the instructions stand in instruction memory from `pc` upward. -/
def Placed (is : List Instr) (s : State) : Prop :=
  ∀ k, (h : k < is.length) → Memory.read s.imem (s.pc + BitVec.ofNat 24 k) = encode is[k]

/-- The value of a 20-bit register-immediate operand in a state (30_encoding.md R68). -/
def value20 (s : State) : RegImm 20 → Word
  | .reg ri => s.readReg ri
  | .imm v => v.signExtend 32

end Sys2Proof.Claims

open Sys2Proof Sys2Proof.Machine Sys2Proof.Claims

/-! ### Encoding -/

/-- Every instruction decodes back from its word, with every operand at every value (30_encoding.md R72, R77). That the
unused bits are written as zero is the spec's decision D1 (notes/assumptions/8.md). -/
def Obligations.DecodeOfEncodeIsIdentity : Prop := ∀ i : Instr, decode (encode i) = i

/-- Encoding a decoded word gives the word with its unused bits cleared, so words whose unused bits are zero have a two-way
encoding (30_encoding.md R73, R77; the spec's decision D1, notes/assumptions/8.md). -/
def Obligations.EncodeOfDecodeClearsUnusedBits : Prop :=
  ∀ w : Word, encode (decode w) = clearUnused w ∧ (canonicalWord w = true → encode (decode w) = w)

/-- A word with any value in its unused bits decodes to the same instruction (30_encoding.md R73, the spec's decision D1,
notes/assumptions/8.md): bits 15:4, 19:4 or 23:4 of a register-format word by its opcode. -/
def Obligations.DecodeIgnoresUnusedBits : Prop :=
  ∀ w u : Word, w.getLsbD 24 = false →
    ((w.extractLsb' 28 4).toNat ≤ 11 → decode (w ^^^ (u &&& 0x0000FFF0#32)) = decode w) ∧
    (12 ≤ (w.extractLsb' 28 4).toNat ∧ (w.extractLsb' 28 4).toNat ≤ 14 → decode (w ^^^ (u &&& 0x000FFFF0#32)) = decode w) ∧
    ((w.extractLsb' 28 4).toNat = 15 → decode (w ^^^ (u &&& 0x00FFFFF0#32)) = decode w)

/-- Every word decodes into the one row of spec/opcode_table.json whose match it has under the mask, and its query is bits
27:25 (30_encoding.md R71, R72, R74). -/
def Obligations.EveryWordDecodesIntoItsRow : Prop :=
  ∀ w : Word, (decode w).rowMatch = w &&& 0xF1000000#32 ∧ (decode w).query = w.extractLsb' 25 3

/-- Six words decode as the spec says: the two of 30_encoding.md R76, those of spec/95_test_vectors.md E1, E9 and E6, and the
word of its 2.6 whose unused bits are set, which the spec's decision D1 lets the decoder ignore (notes/assumptions/8.md). -/
def Obligations.SampleWordsDecode : Prop :=
  decode 0x9FFFFFFE#32 = .addImm 0b111#3 15#4 15#4 0xFFFE#16 ∧
  decode 0xCC000002#32 = .stlReg 0b110#3 0#4 2#4 ∧
  decode 0x8E860009#32 = .subReg 0b111#3 8#4 6#4 9#4 ∧
  decode 0xAE62000E#32 = .mldReg 0b111#3 6#4 2#4 14#4 ∧
  decode 0xEF100002#32 = .lnkImm 0b111#3 1#4 2#20 ∧
  decode 0xFE123451#32 = .jmpReg 0b111#3 1#4

/-! ### The step -/

/-- A step runs the instruction that the word at `pc` of instruction memory decodes to, and adds nothing around it
(40_execution_cycle.md R90, R91). -/
def Obligations.StepRunsTheDecodedInstruction : Prop :=
  ∀ (s : State) (i : Instr), decode (Memory.read s.imem s.pc) = i → step s = exec i s

/-- An instruction whose word is placed at `pc` is exactly what the next step runs (40_execution_cycle.md R91,
30_encoding.md R60), and placing it changes no other word of instruction memory and nothing else. -/
def Obligations.PlacedInstructionRuns : Prop :=
  ∀ (s : State) (i : Instr),
    step (s.withFetchWord 32 (encode i).toNat) = exec i (s.withFetchWord 32 (encode i).toNat) ∧
    (∀ a, a ≠ s.pc → Memory.read (s.withFetchWord 32 (encode i).toNat).imem a = Memory.read s.imem a) ∧
    s.withFetchWord 32 (encode i).toNat = { s with imem := (s.withFetchWord 32 (encode i).toNat).imem }

/-- Every instruction in every state, so every step and every run, ends in a next state: no exception, no halted state
(60_exceptions.md R210, 40_execution_cycle.md R92, 70_reset_and_hazards.md R244; the spec's decision D8,
notes/assumptions/19.md). -/
def Obligations.TheMachineNeverStops : Prop :=
  (∀ (i : Instr) (s : State), ∃ t, exec i s = .next t) ∧
  ∀ (k : Nat) (s : State), ∃ t, Host.Core.run core k s = .next t

/-- A skipped instruction, whatever it is, only advances `pc` (40_execution_cycle.md R95; the spec's decision D2,
notes/assumptions/11.md, and D3 for the wrap, notes/assumptions/7.md). -/
def Obligations.SkippedInstructionOnlyAdvances : Prop :=
  ∀ (i : Instr) (s : State), ¬ Executes i.query s → exec i s = .next { s with pc := s.pc + 1 }

/-- `pc` advances by one, modulo 2^24, after every instruction but an executed JMP (40_execution_cycle.md R96). That a
skipped JMP advances is the spec's decision D2 (notes/assumptions/11.md), the wrap its decision D3 (notes/assumptions/7.md). -/
def Obligations.ProgramCounterAdvancesByOne : Prop :=
  ∀ (i : Instr) (s : State), (isJmp i = false ∨ ¬ Executes i.query s) →
    ∃ t, exec i s = .next t ∧ t.pc.toNat = (s.pc.toNat + 1) % 2 ^ 24

/-- After an executed CMP each of the eight queries passes exactly when its relation holds between A, the value of `$RD`, and
B, the register-immediate, as signed values (30_encoding.md R78). The mask test is 40_execution_cycle.md R93; on every `$CR` a
CMP leaves it is fixed by the source. -/
def Obligations.QueriesMeanTheirRelations : Prop :=
  ∀ (cq : Query) (rd : RegNum) (s : State), Executes cq s →
    (∀ ri : RegNum, ∃ t, exec (.cmpReg cq rd ri) s = .next t ∧
      QueriesTell (s.readReg rd).toInt (s.readReg ri).toInt t) ∧
    (∀ v : BitVec 20, ∃ t, exec (.cmpImm cq rd v) s = .next t ∧ QueriesTell (s.readReg rd).toInt v.toInt t)

/-- At the start of a program `$CR` is `?OK`, so every query but `?NO` passes (for every launch, `State.reset` among them), and
an executed CMP only ever changes `$CR` to `?LT`, `?EQ` or `?GT` (70_reset_and_hazards.md R236). -/
def Obligations.ComparisonRegisterStartsAtOk : Prop :=
  State.reset.cr = 0b111#3 ∧
  (∀ resetPc resetX imem dmem, (State.launch resetPc resetX imem dmem).cr = 0b111#3 ∧
    ∀ cq : Query, queryPasses cq (State.launch resetPc resetX imem dmem).cr = true ↔ cq ≠ 0b000#3) ∧
  ∀ (cq : Query) (rd : RegNum) (s : State), Executes cq s →
    (∀ ri : RegNum, ∃ t, exec (.cmpReg cq rd ri) s = .next t ∧ CrCompared t) ∧
    (∀ v : BitVec 20, ∃ t, exec (.cmpImm cq rd v) s = .next t ∧ CrCompared t)

/-! ### Rules of the whole machine -/

/-- Only an executed CMP changes `$CR`, and it leaves one of `?LT`, `?EQ`, `?GT`, which every later instruction keeps until an
executed CMP (10_state.md R31). -/
def Obligations.OnlyExecutedCmpWritesCr : Prop :=
  ∀ (i : Instr) (s : State), ∃ t, exec i s = .next t ∧
    (isCmp i = true ∧ Executes i.query s → CrCompared t) ∧
    (¬ (isCmp i = true ∧ Executes i.query s) → t.cr = s.cr)

/-- No instruction but an executed MST changes any word of data memory (20_memory.md R42; 10_state.md R20). That a skipped
instruction, MST among them, stores nothing is the spec's decision D2 (40_execution_cycle.md R95, notes/assumptions/11.md). -/
def Obligations.OnlyExecutedMstWritesDataMemory : Prop :=
  ∀ (i : Instr) (s : State), ¬ (isMst i = true ∧ Executes i.query s) →
    ∃ t, exec i s = .next t ∧ ∀ a, t.load a = s.load a

/-- Instruction memory is constant over a run, whatever the instructions (20_memory.md R41, R56). -/
def Obligations.InstructionMemoryIsConstant : Prop :=
  ∀ (k : Nat) (s t : State), Host.Core.run core k s = .next t → t.imem = s.imem

/-- An instruction changes no general register but its destination, and MST, CMP and JMP change none
(30_encoding.md R79, 10_state.md R20). That a skipped instruction writes no register is the spec's decision D2
(40_execution_cycle.md R95, notes/assumptions/11.md). -/
def Obligations.OnlyTheDestinationRegisterChanges : Prop :=
  ∀ (i : Instr) (s : State) (r : RegNum), destination i ≠ some r →
    ∃ t, exec i s = .next t ∧ t.readReg r = s.readReg r

/-- No instruction reads instruction memory as data: with other contents of instruction memory, an instruction does the same to
everything else (20_memory.md R41, R56). -/
def Obligations.InstructionMemoryIsNotReadAsData : Prop :=
  ∀ (i : Instr) (s t : State) (m : Memory), exec i s = .next t → exec i { s with imem := m } = .next { t with imem := m }

/-- Data memory is read only by an executed MLD: any other instruction does the same to the registers, `pc` and `$CR` whatever
data memory holds, and what MST stores does not depend on it (20_memory.md R42, R44). That a skipped MLD reads nothing
and a skipped MST stores nothing is the spec's decision D2 (40_execution_cycle.md R95, notes/assumptions/11.md). -/
def Obligations.OnlyMldReadsDataMemory : Prop :=
  ∀ (i : Instr) (s t : State) (m : Memory), ¬ (isMld i = true ∧ Executes i.query s) → exec i s = .next t →
    ∃ u, exec i { s with dmem := m } = .next u ∧ u.x = t.x ∧ u.pc = t.pc ∧ u.cr = t.cr ∧
      ∀ a, (t.load a = s.load a ∧ u.load a = Memory.read m a) ∨ u.load a = t.load a

/-! ### What each instruction does

Each statement holds its rule's encoding, its result in both formats, and the frame. -/

/-- SHL (41_shift_and_bitwise.md R106): shift left by the low five bits of the operand, modulo 2^32. -/
def Obligations.ShlResult : Prop :=
  ThreeArgEncoded 0#4 .shlReg .shlImm ∧
  ThreeArgResult .shlReg .shlImm fun rs ri => BitVec.ofNat 32 (rs.toNat * 2 ^ (ri.toNat % 32))

/-- SHR (41_shift_and_bitwise.md R107): logical shift right by the low five bits of the operand. -/
def Obligations.ShrResult : Prop :=
  ThreeArgEncoded 1#4 .shrReg .shrImm ∧
  ThreeArgResult .shrReg .shrImm fun rs ri => BitVec.ofNat 32 (rs.toNat / 2 ^ (ri.toNat % 32))

/-- AND (41_shift_and_bitwise.md R108): all 32 bits. -/
def Obligations.AndResult : Prop :=
  ThreeArgEncoded 2#4 .andReg .andImm ∧
  ThreeArgResult .andReg .andImm fun rs ri => rs &&& ri

/-- IOR (41_shift_and_bitwise.md R109): all 32 bits. -/
def Obligations.IorResult : Prop :=
  ThreeArgEncoded 3#4 .iorReg .iorImm ∧
  ThreeArgResult .iorReg .iorImm fun rs ri => rs ||| ri

/-- XOR (41_shift_and_bitwise.md R110): all 32 bits. -/
def Obligations.XorResult : Prop :=
  ThreeArgEncoded 4#4 .xorReg .xorImm ∧
  ThreeArgResult .xorReg .xorImm fun rs ri => rs ^^^ ri

/-- STU (41_shift_and_bitwise.md R111): the low half of the operand above the low half of `$RS`. -/
def Obligations.StuResult : Prop :=
  ThreeArgEncoded 5#4 .stuReg .stuImm ∧
  ThreeArgResult .stuReg .stuImm fun rs ri => BitVec.ofNat 32 (ri.toNat % 2 ^ 16 * 2 ^ 16 + rs.toNat % 2 ^ 16)

/-- MUL (42_arithmetic.md R121): the low 32 bits of the product, the same for the signed and for the unsigned readings. The
width is the spec's decision D18 (notes/assumptions/17.md). -/
def Obligations.MulResult : Prop :=
  ThreeArgEncoded 6#4 .mulReg .mulImm ∧
  (ThreeArgResult .mulReg .mulImm fun rs ri => BitVec.ofInt 32 (rs.toInt * ri.toInt)) ∧
  ThreeArgResult .mulReg .mulImm fun rs ri => BitVec.ofNat 32 (rs.toNat * ri.toNat)

/-- SUB (42_arithmetic.md R123): the operand minus `$RS`, modulo 2^32, in the reversed order, the same for both readings. -/
def Obligations.SubResult : Prop :=
  ThreeArgEncoded 8#4 .subReg .subImm ∧
  (ThreeArgResult .subReg .subImm fun rs ri => BitVec.ofInt 32 (ri.toInt - rs.toInt)) ∧
  ThreeArgResult .subReg .subImm fun rs ri => BitVec.ofInt 32 ((ri.toNat : Int) - (rs.toNat : Int))

/-- ADD (42_arithmetic.md R124): modulo 2^32, the same for both readings. -/
def Obligations.AddResult : Prop :=
  ThreeArgEncoded 9#4 .addReg .addImm ∧
  (ThreeArgResult .addReg .addImm fun rs ri => BitVec.ofInt 32 (rs.toInt + ri.toInt)) ∧
  ThreeArgResult .addReg .addImm fun rs ri => BitVec.ofNat 32 (rs.toNat + ri.toNat)

/-- DIV (42_arithmetic.md R122): a zero divisor gives `$RS`; -2^31 by -1 gives -2^31; otherwise the signed quotient rounded
toward zero. -/
def Obligations.DivResult : Prop :=
  ThreeArgEncoded 7#4 .divReg .divImm ∧
  ThreeArgResult .divReg .divImm fun rs ri =>
    if ri.toInt = 0 then rs
    else if rs.toInt = -2 ^ 31 ∧ ri.toInt = -1 then 0x80000000#32
    else BitVec.ofInt 32 (rs.toInt.tdiv ri.toInt)

/-- The quotient of DIV rounds toward zero for every combination of signs, and never wraps but in the one stated case
(42_arithmetic.md R122, R128): its magnitude is the floor of the quotient of magnitudes, and it is negative exactly when the
signs differ and the magnitude is not zero. -/
def Obligations.DivisionRoundsTowardZero : Prop :=
  ∀ a b : Word, b.toInt ≠ 0 → ¬ (a.toInt = -2 ^ 31 ∧ b.toInt = -1) →
    (divide a b).toInt.natAbs = a.toInt.natAbs / b.toInt.natAbs ∧
    ((divide a b).toInt < 0 ↔ ((a.toInt < 0 ↔ 0 < b.toInt) ∧ (divide a b).toInt ≠ 0))

/-- The effective address is the low 24 bits of the sum: bits 31:24 are dropped without a check (20_memory.md R45,
43_memory_access.md R135). -/
def Obligations.EffectiveAddressIsTruncatedSum : Prop :=
  ∀ base offset : Word, (effectiveAddress base offset).toNat = (base.toNat + offset.toNat) % 2 ^ 24

/-- MLD (43_memory_access.md R136): the word of data memory at the effective address, computed from the registers of before. -/
def Obligations.MldResult : Prop :=
  ThreeArgEncoded 10#4 .mldReg .mldImm ∧
  ∀ (cq : Query) (rd rs : RegNum) (s : State), Executes cq s →
    (∀ ri : RegNum, ∃ t, exec (.mldReg cq rd rs ri) s = .next t ∧
      ResultWritten rd (s.load (address (s.readReg rs) (s.readReg ri))) s t) ∧
    (∀ v : BitVec 16, ∃ t, exec (.mldImm cq rd rs v) s = .next t ∧
      ResultWritten rd (s.load (address (s.readReg rs) (v.signExtend 32))) s t)

/-- MST (43_memory_access.md R137, 20_memory.md R44): all 32 bits of `x[$RD]` are stored at the effective address, every other
word of data memory and every word of instruction memory reads as before, and no register and no `$CR` changes. -/
def Obligations.MstResult : Prop :=
  ThreeArgEncoded 11#4 .mstReg .mstImm ∧
  ∀ (cq : Query) (rd rs : RegNum) (s : State), Executes cq s →
    (∀ ri : RegNum, ∃ t, exec (.mstReg cq rd rs ri) s = .next t ∧
      (∀ a, t.load a = if a = address (s.readReg rs) (s.readReg ri) then s.readReg rd else s.load a) ∧
      t.x = s.x ∧ t.cr = s.cr ∧ t.imem = s.imem) ∧
    (∀ v : BitVec 16, ∃ t, exec (.mstImm cq rd rs v) s = .next t ∧
      (∀ a, t.load a = if a = address (s.readReg rs) (v.signExtend 32) then s.readReg rd else s.load a) ∧
      t.x = s.x ∧ t.cr = s.cr ∧ t.imem = s.imem)

/-- A load returns the value of the latest store to the same address, and a store to another address does not change what a
load returns (20_memory.md R43, R53; one agent in program order is the spec's decision D11, notes/assumptions/22.md). -/
def Obligations.LoadSeesTheLatestStore : Prop :=
  ∀ (cq : Query) (rd rs ri rd' rs' ri' : RegNum) (s t : State), Executes cq s → exec (.mstReg cq rd rs ri) s = .next t →
    ∃ u, exec (.mldReg cq rd' rs' ri') t = .next u ∧
      u.readReg rd' =
        if address (s.readReg rs') (s.readReg ri') = address (s.readReg rs) (s.readReg ri)
        then s.readReg rd else s.load (address (s.readReg rs') (s.readReg ri'))

/-- STL (44_set_compare_link.md R146): the whole register, the operand's full value or the immediate's signed value. -/
def Obligations.StlResult : Prop :=
  TwoArgEncoded 12#4 .stlReg .stlImm ∧
  ∀ (cq : Query) (rd : RegNum) (s : State), Executes cq s →
    (∀ ri : RegNum, ∃ t, exec (.stlReg cq rd ri) s = .next t ∧ ResultWritten rd (s.readReg ri) s t) ∧
    (∀ v : BitVec 20, ∃ t, exec (.stlImm cq rd v) s = .next t ∧ ResultWritten rd (BitVec.ofInt 32 v.toInt) s t)

/-- CMP (44_set_compare_link.md R150): `$CR` becomes `?LT`, `?EQ` or `?GT` by the signed comparison of `$RD` with the operand, and
nothing else is written; a skipped CMP leaves `$CR` as it is. -/
def Obligations.CmpResult : Prop :=
  TwoArgEncoded 13#4 .cmpReg .cmpImm ∧
  ∀ (cq : Query) (rd : RegNum) (s : State),
    (Executes cq s →
      (∀ ri : RegNum, ∃ t, exec (.cmpReg cq rd ri) s = .next t ∧
        ((s.readReg rd).toInt < (s.readReg ri).toInt → t.cr = 0b100#3) ∧
        ((s.readReg rd).toInt = (s.readReg ri).toInt → t.cr = 0b010#3) ∧
        ((s.readReg rd).toInt > (s.readReg ri).toInt → t.cr = 0b001#3) ∧
        (∀ r, t.readReg r = s.readReg r) ∧ KeepsMemories s t) ∧
      (∀ v : BitVec 20, ∃ t, exec (.cmpImm cq rd v) s = .next t ∧
        ((s.readReg rd).toInt < v.toInt → t.cr = 0b100#3) ∧
        ((s.readReg rd).toInt = v.toInt → t.cr = 0b010#3) ∧
        ((s.readReg rd).toInt > v.toInt → t.cr = 0b001#3) ∧
        (∀ r, t.readReg r = s.readReg r) ∧ KeepsMemories s t)) ∧
    (¬ Executes cq s →
      (∀ ri : RegNum, ∃ t, exec (.cmpReg cq rd ri) s = .next t ∧ t.cr = s.cr) ∧
      (∀ v : BitVec 20, ∃ t, exec (.cmpImm cq rd v) s = .next t ∧ t.cr = s.cr))

/-- LNK (44_set_compare_link.md R153): the instruction's own address, sign-extended from 24 bits, plus the operand, modulo 2^32;
and it does not jump. -/
def Obligations.LnkResult : Prop :=
  TwoArgEncoded 14#4 .lnkReg .lnkImm ∧
  ∀ (cq : Query) (rd : RegNum) (s : State), Executes cq s →
    (∀ ri : RegNum, ∃ t, exec (.lnkReg cq rd ri) s = .next t ∧
      ResultWritten rd (BitVec.ofInt 32 (s.pc.toInt + (s.readReg ri).toInt)) s t ∧ PcAdvances s t) ∧
    (∀ v : BitVec 20, ∃ t, exec (.lnkImm cq rd v) s = .next t ∧
      ResultWritten rd (BitVec.ofInt 32 (s.pc.toInt + v.toInt)) s t ∧ PcAdvances s t)

/-- JMP (45_jump.md R161): `pc` becomes the low 24 bits of the register, or the 24-bit immediate itself, and nothing else
changes; a skipped JMP only advances `pc`. -/
def Obligations.JmpResult : Prop :=
  ∀ (cq : Query),
    (∀ ri : RegNum, encode (.jmpReg cq ri) = 15#4 ++ cq ++ 0#1 ++ 0#20 ++ ri) ∧
    (∀ v : BitVec 24, encode (.jmpImm cq v) = 15#4 ++ cq ++ 1#1 ++ v) ∧
    ∀ s : State,
      (Executes cq s →
        (∀ ri : RegNum, ∃ t, exec (.jmpReg cq ri) s = .next t ∧
          t.pc.toNat = (s.readReg ri).toNat % 2 ^ 24 ∧ t = { s with pc := t.pc }) ∧
        (∀ v : BitVec 24, ∃ t, exec (.jmpImm cq v) s = .next t ∧ t.pc = v ∧ t = { s with pc := t.pc })) ∧
      (¬ Executes cq s →
        (∀ ri : RegNum, ∃ t, exec (.jmpReg cq ri) s = .next t ∧ t = { s with pc := t.pc } ∧ PcAdvances s t) ∧
        (∀ v : BitVec 24, ∃ t, exec (.jmpImm cq v) s = .next t ∧ t = { s with pc := t.pc } ∧ PcAdvances s t))

/-! ### Invariants -/

/-- `$CR` is `?OK` after reset; after a step it is a value some run reaches if it was before; from the first executed CMP on it
is `?LT`, `?EQ` or `?GT` for ever (10_state.md R33). For all states, not only those a run reaches. -/
def Obligations.CrTakesOnlyReachableValues : Prop :=
  State.reset.cr = 0b111#3 ∧
  ∀ s : State, ∃ t, step s = .next t ∧
    (CrLegal s → CrLegal t) ∧
    (CrCompared s → CrCompared t) ∧
    (isCmp (decode s.fetchWord) = true ∧ Executes (decode s.fetchWord).query s → CrCompared t) ∧
    (t.cr = 0b111#3 → s.cr = 0b111#3)

/-- Every step keeps both memories in canonical form. The form is the model's (notes/assumptions/13.md). -/
def Obligations.StepKeepsMemoriesCanonical : Prop :=
  ∀ s : State, s.memWf = true → ∃ t, step s = .next t ∧ t.memWf = true

/-- The state after reset meets the two invariants above. That its memories list nothing is the model's choice
(notes/assumptions/3.md, notes/assumptions/4.md). -/
def Obligations.ResetMeetsTheInvariants : Prop := CrLegal State.reset ∧ State.reset.memWf = true

/-- Every contents of the 2^24 words is a memory in canonical form, and only one: so a launch can start with any instruction
memory and any data memory (00_scope.md R7, 20_memory.md R47; notes/assumptions/6.md, notes/assumptions/13.md). -/
def Obligations.EveryContentsIsOneMemory : Prop :=
  ∀ f : Addr → Word, ∃ m : Memory, Memory.wf m = true ∧ (∀ a, Memory.read m a = f a) ∧
    ∀ m' : Memory, Memory.wf m' = true → (∀ a, Memory.read m' a = f a) → m' = m

/-! ### The end of a run -/

/-- A state is terminal exactly when the step leaves the whole state unchanged (70_reset_and_hazards.md R244, R245; the
convention is the spec's decision D13, notes/assumptions/21.md). -/
def Obligations.TerminalExactlyWhenStepIsIdentity : Prop := ∀ s : State, isTerminal s = true ↔ step s = .next s

/-- A terminal state stays as it is for ever (70_reset_and_hazards.md R245; D13, notes/assumptions/21.md). -/
def Obligations.TerminalStateIsForEver : Prop :=
  ∀ s : State, isTerminal s = true → ∀ k, Host.Core.run core k s = .next s

/-! ### Pseudo-instructions, run from instruction memory -/

/-- NOP only advances `pc` (46_assembler_and_pseudo.md R186; the wrap of `pc` is D3, notes/assumptions/7.md). -/
def Obligations.NopOnlyAdvances : Prop :=
  ∀ s : State, Placed expandNop s → step s = .next { s with pc := s.pc + 1 }

/-- END: when its query passes, `pc` stays at its address for ever and no other state changes; when its query fails, execution
continues at the next word (46_assembler_and_pseudo.md R187). -/
def Obligations.EndLoopsForEver : Prop :=
  ∀ (cq : Query) (s : State), Placed (expandEnd cq s.pc) s →
    (Executes cq s → ∀ k, Host.Core.run core k s = .next s) ∧
    (¬ Executes cq s → step s = .next { s with pc := s.pc + 1 })

/-- JAL, its two words run: `$ra` holds `sext_24(A) + 2`, whose low 24 bits are the address of the word after the JMP, `pc` is
the target, read after `$ra` is written, and nothing else changes (46_assembler_and_pseudo.md R188). -/
def Obligations.JalLinksAndJumps : Prop :=
  ∀ (cq : Query) (target : RegImm 24) (s : State), Executes cq s → Placed (expandJal cq target) s →
    ∃ t, Host.Core.run core 2 s = .next t ∧
      t = { s with
        x := s.x.set 1 (s.pc.signExtend 32 + 2#32)
        pc := match target with
          | .imm v => v
          | .reg r => (if r = 1#4 then s.pc.signExtend 32 + 2#32 else s.readReg r).extractLsb' 0 24 } ∧
      (t.readReg 1#4).extractLsb' 0 24 = s.pc + 2#24

/-- RTN, its two words run: `$rv` holds the value, `pc` is the low 24 bits of `$ra`, and nothing else changes
(46_assembler_and_pseudo.md R189). -/
def Obligations.RtnSetsValueAndReturns : Prop :=
  ∀ (cq : Query) (value : RegImm 20) (s : State), Executes cq s → Placed (expandRtn cq value) s →
    Host.Core.run core 2 s = .next { s with
      x := s.x.set 0 (value20 s value)
      pc := (s.readReg 1#4).extractLsb' 0 24 }

/-- STI, its two words run, loads any 32-bit constant into any register (46_assembler_and_pseudo.md R194; SLI's zero-extended
slice is the spec's decision D26, notes/assumptions/16.md; `pc` advances by two, D3, notes/assumptions/7.md). -/
def Obligations.StiLoadsAnyConstant : Prop :=
  ∀ (cq : Query) (rd : RegNum) (imm32 : Word) (s : State), Executes cq s → Placed (expandSti cq rd imm32) s →
    Host.Core.run core 2 s = .next { s.writeReg rd imm32 with pc := s.pc + 2#24 }

/-- PSH, its two words run: `$sp` decreases by one, and the word at its new low 24 bits is `x[$RD]` as it is after the
decrement (46_assembler_and_pseudo.md R195). -/
def Obligations.PshPushes : Prop :=
  ∀ (cq : Query) (rd : RegNum) (s : State), Executes cq s → Placed (expandPsh cq rd) s →
    ∃ t, Host.Core.run core 2 s = .next t ∧
      t.readReg 15#4 = s.readReg 15#4 - 1#32 ∧ (∀ r, r ≠ 15#4 → t.readReg r = s.readReg r) ∧ t.cr = s.cr ∧ t.imem = s.imem ∧
      ∀ a, t.load a = if a = (t.readReg 15#4).extractLsb' 0 24 then t.readReg rd else s.load a

/-- POP, its two words run: `x[$RD]` holds the word at the low 24 bits of `$sp`, then `$sp` increases by one, and POP of `$sp`
ends with the loaded word plus one (46_assembler_and_pseudo.md R197). -/
def Obligations.PopPops : Prop :=
  ∀ (cq : Query) (rd : RegNum) (s : State), Executes cq s → Placed (expandPop cq rd) s →
    ∃ t, Host.Core.run core 2 s = .next t ∧
      (∀ r, t.readReg r =
        if r = 15#4 then (if rd = 15#4 then s.load ((s.readReg 15#4).extractLsb' 0 24) else s.readReg 15#4) + 1#32
        else if r = rd then s.load ((s.readReg 15#4).extractLsb' 0 24) else s.readReg r) ∧
      t.cr = s.cr ∧ KeepsMemories s t

/-- NIL, MOV, SLI, SUI and TOP, their one word run (46_assembler_and_pseudo.md R190, R191, R192, R193, R196; SLI's
zero-extended slice is the spec's decision D26, notes/assumptions/16.md). -/
def Obligations.OneWordPseudoResults : Prop :=
  ∀ (cq : Query) (rd rs : RegNum) (imm32 : Word) (o : RegImm 20) (s : State), Executes cq s →
    (Placed (expandNil cq rd) s → ∃ t, step s = .next t ∧ ResultWritten rd 0#32 s t) ∧
    (Placed (expandMov cq rd o) s → ∃ t, step s = .next t ∧ ResultWritten rd (value20 s o) s t) ∧
    (Placed (expandSli cq rd imm32) s → ∃ t, step s = .next t ∧
      ResultWritten rd (BitVec.ofNat 32 (imm32.toNat % 2 ^ 16)) s t) ∧
    (Placed (expandSui cq rd rs imm32) s → ∃ t, step s = .next t ∧
      ResultWritten rd (BitVec.ofNat 32 (imm32.toNat / 2 ^ 16 * 2 ^ 16 + (s.readReg rs).toNat % 2 ^ 16)) s t) ∧
    (Placed (expandTop cq rd) s → ∃ t, step s = .next t ∧
      ResultWritten rd (s.load ((s.readReg 15#4).extractLsb' 0 24)) s t)

/-! ### The assembler -/

/-- A constant is accepted in an N-bit slot exactly from -2^(N-1) to 2^N - 1, and the hardware's sign extension reads it back as
itself, or less 2^N when bit N-1 is set (46_assembler_and_pseudo.md R183; the range is the spec's decision D14,
notes/assumptions/16.md). -/
def Obligations.SlotAcceptsAndReadsBack : Prop :=
  ∀ (n : Nat) (v : Int), 1 ≤ n →
    ((∃ f, slotField n v = .ok f) ↔ -2 ^ (n - 1) ≤ v ∧ v ≤ 2 ^ n - 1) ∧
    ∀ f, slotField n v = .ok f → f.toInt = if v < 2 ^ (n - 1) then v else v - 2 ^ n

/-- A label in a 3-ARG instruction is an assembly error; SUI, whose expansion is a 3-ARG instruction, takes a defined label's
absolute address (46_assembler_and_pseudo.md R182). -/
def Obligations.LabelInThreeArgIsRejected : Prop :=
  ∀ (table : LabelTable) (here : Nat) (m : ThreeArg) (q : Option Query) (rd rs : RegNum) (name : LabelName),
    expandStatement table here ⟨.three m, q,
      if registerImmediateSecond m then [.reg rd, .label name, .reg rs] else [.reg rd, .reg rs, .label name]⟩
      = .error .labelInThreeArg ∧
    ∀ a < 2 ^ 24, labelAddress table name = .ok a →
      expandStatement table here ⟨.sui, q, [.reg rd, .reg rs, .label name]⟩
        = .ok (expandSui (q.getD queryOk) rd rs (BitVec.ofNat 32 a))

/-- In JMP and JAL a label is its absolute address; in STL, CMP and LNK it is its address minus the instruction's own, and it is
rejected when that does not fit 20 bits (46_assembler_and_pseudo.md R180, R181, R183; D14, notes/assumptions/16.md). -/
def Obligations.LabelsAbsoluteInOneArgRelativeInTwoArg : Prop :=
  ∀ (table : LabelTable) (here a : Nat) (q : Option Query) (rd : RegNum) (name : LabelName),
    here < 2 ^ 24 → a < 2 ^ 24 → labelAddress table name = .ok a →
    expandStatement table here ⟨.jmp, q, [.label name]⟩ = .ok [.jmpImm (q.getD queryOk) (BitVec.ofNat 24 a)] ∧
    expandStatement table here ⟨.jal, q, [.label name]⟩ = .ok (expandJal (q.getD queryOk) (.imm (BitVec.ofNat 24 a))) ∧
    ∀ m : TwoArg, expandStatement table here ⟨.two m, q, [.reg rd, .label name]⟩ =
      if -2 ^ 19 ≤ (a : Int) - here ∧ (a : Int) - here ≤ 2 ^ 20 - 1
      then .ok [twoArg m (q.getD queryOk) rd (.imm (BitVec.ofInt 20 ((a : Int) - here)))]
      else .error .tooWide

/-- A statement that is accepted emits the number of words of its mnemonic, so the addresses given to labels are those of the
words emitted (46_assembler_and_pseudo.md R184, R199). -/
def Obligations.AcceptedStatementHasItsWordCount : Prop :=
  ∀ (table : LabelTable) (here : Nat) (st : Statement) (is : List Instr),
    expandStatement table here st = .ok is → is.length = wordCount st.mnemonic

/-- Case makes no difference to what a text assembles to (46_assembler_and_pseudo.md R170). Case is that of the letters A to Z,
the only ones the spec's own names hold; that other letters of a label name are not folded is the model's choice
(notes/assumptions/15.md). -/
def Obligations.AssemblyIgnoresCase : Prop :=
  ∀ (base : Addr) (text : List Char),
    assemble base (text.map Char.toUpper) = assemble base text ∧ assemble base (text.map Char.toLower) = assemble base text

/-- The words of an accepted text have zero in their unused bits, fit the instruction memory from the base upward, and stand
there, in order, when the program is launched (46_assembler_and_pseudo.md R184, 30_encoding.md R77,
70_reset_and_hazards.md R239; D1 and D4, notes/assumptions/8.md and notes/assumptions/2.md). That they fit is the model's own
choice, which rejects a program that does not (notes/assumptions/16.md). -/
def Obligations.LaunchedProgramStandsAtItsBase : Prop :=
  ∀ (base : Addr) (x : Vector Word 16) (dmem : Memory) (text : List Char) (ws : List Word), assemble base text = .ok ws →
    base.toNat + ws.length ≤ 2 ^ 24 ∧
    (∀ w ∈ ws, canonicalWord w = true) ∧
    ∃ s, launchProgram base x dmem text = .ok s ∧ s.pc = base ∧ s.x = x ∧ s.dmem = dmem ∧
      ∀ k, (h : k < ws.length) → Memory.read s.imem (base + BitVec.ofNat 24 k) = ws[k]
end

