-- ==== Sys2Proof/Laws/Memory.lean ====
section
/-! SUPPORT. The laws of a memory: what a read gives after a write, and that every memory operation keeps the canonical form. -/

namespace Sys2Proof.Machine

/-! ### Read after write -/

theorem Memory.lookup_erase (m : Memory) (a b : Nat) :
    Memory.lookup (Memory.erase m a) b = if b = a then Config.unlistedWord else Memory.lookup m b := by
  induction m with
  | nil => simp [Memory.erase, Memory.lookup]
  | cons c rest ih =>
    obtain ⟨k, w⟩ := c
    have ih' : Memory.lookup (List.filter (fun c => c.1 != a) rest) b = _ := ih
    by_cases hk : k = a
    · subst hk
      have hskip : Memory.erase ((k, w) :: rest) k = Memory.erase rest k := by simp [Memory.erase]
      rw [hskip, ih]
      by_cases hb : b = k
      · simp [hb]
      · simp [Memory.lookup, hb, Ne.symm hb]
    · by_cases hb : b = a
      · subst hb; simp [Memory.erase, Memory.lookup, ih', hk]
      · simp [Memory.erase, Memory.lookup, ih', hk, hb]

theorem Memory.lookup_place {m : Memory} {a : Nat} (h : Memory.lookup m a = Config.unlistedWord) (hm : ∀ c ∈ m, c.1 ≠ a)
    (b : Nat) (v : Word) : Memory.lookup (Memory.place m a v) b = if b = a then v else Memory.lookup m b := by
  induction m with
  | nil => simp [Memory.place, Memory.lookup, eq_comm]
  | cons c rest ih =>
    obtain ⟨k, w⟩ := c
    have hk : k ≠ a := hm (k, w) (by simp)
    have ih' := ih (by simpa [Memory.lookup, hk] using h) fun c hc => hm c (by simp [hc])
    simp only [Memory.place]
    split
    · simp [Memory.lookup, eq_comm]
    · by_cases hb : b = a
      · subst hb; simp [Memory.lookup, hk, ih']
      · simp [Memory.lookup, ih', hb]

/-- What is listed after an insertion, for every memory, canonical or not. -/
theorem Memory.lookup_insert (m : Memory) (a b : Nat) (v : Word) :
    Memory.lookup (Memory.insert m a v) b = if b = a then v else Memory.lookup m b := by
  have he := Memory.lookup_erase m a
  have hne : ∀ c ∈ Memory.erase m a, c.1 ≠ a := fun c hc => by simpa [Memory.erase] using (List.mem_filter.1 hc).2
  by_cases hv : v = Config.unlistedWord
  · simp [Memory.insert, hv, he]
  · simp only [Memory.insert, hv, if_false, Memory.lookup_place (by simp [he]) hne, he]
    split <;> simp

/-- `MemWrite` then `MemRead` (20_memory.md R43, R44). -/
theorem Memory.read_write (m : Memory) (a b : Addr) (v : Word) :
    Memory.read (Memory.write m a v) b = if b = a then v else Memory.read m b := by
  simp only [Memory.read, Memory.write, Memory.lookup_insert, BitVec.toNat_inj]

@[simp] theorem Memory.read_write_self (m : Memory) (a : Addr) (v : Word) : Memory.read (Memory.write m a v) a = v := by
  simp [Memory.read_write]

@[simp] theorem Memory.read_write_of_ne (m : Memory) (a b : Addr) (v : Word) (h : b ≠ a) :
    Memory.read (Memory.write m a v) b = Memory.read m b := by
  simp [Memory.read_write, h]

@[simp] theorem Memory.read_nil (a : Addr) : Memory.read [] a = Config.unlistedWord := rfl

/-! ### Canonical form -/

theorem Memory.wfFrom_cons (lo k : Nat) (v : Word) (rest : Memory) :
    Memory.wfFrom lo ((k, v) :: rest) = true ↔
      lo ≤ k ∧ k < 2 ^ 24 ∧ v ≠ Config.unlistedWord ∧ Memory.wfFrom (k + 1) rest = true := by
  simp only [Memory.wfFrom, Bool.and_eq_true, decide_eq_true_eq, bne_iff_ne, and_assoc]

/-- A lower bound can be lowered. -/
theorem Memory.wfFrom_mono {lo lo' : Nat} (h : lo' ≤ lo) {m : Memory} (hm : Memory.wfFrom lo m = true) :
    Memory.wfFrom lo' m = true := by
  cases m with
  | nil => rfl
  | cons c rest =>
    obtain ⟨k, v⟩ := c
    rw [Memory.wfFrom_cons] at hm ⊢
    exact ⟨by omega, hm.2⟩

/-- Below the lower bound nothing is listed. -/
theorem Memory.lookup_below {lo : Nat} {m : Memory} (hm : Memory.wfFrom lo m = true) {a : Nat} (h : a < lo) :
    Memory.lookup m a = Config.unlistedWord := by
  induction m generalizing lo with
  | nil => rfl
  | cons c rest ih =>
    obtain ⟨k, v⟩ := c
    rw [Memory.wfFrom_cons] at hm
    have hk : k ≠ a := by omega
    simpa [Memory.lookup, hk] using ih hm.2.2.2 (by omega)

theorem Memory.wfFrom_erase {lo : Nat} {m : Memory} (hm : Memory.wfFrom lo m = true) (a : Nat) :
    Memory.wfFrom lo (Memory.erase m a) = true := by
  induction m generalizing lo with
  | nil => rfl
  | cons c rest ih =>
    obtain ⟨k, w⟩ := c
    obtain ⟨h1, h2, h3, h4⟩ := (Memory.wfFrom_cons lo k w rest).1 hm
    by_cases hk : k = a
    · simpa [Memory.erase, hk] using Memory.wfFrom_mono (show lo ≤ k + 1 by omega) (ih h4)
    · simpa [Memory.erase, hk] using (Memory.wfFrom_cons ..).2 ⟨h1, h2, h3, ih h4⟩

theorem Memory.wfFrom_place {lo : Nat} {m : Memory} (hm : Memory.wfFrom lo m = true) {a : Nat} (hne : ∀ c ∈ m, c.1 ≠ a)
    (hlo : lo ≤ a) (ha : a < 2 ^ 24) {v : Word} (hv : v ≠ Config.unlistedWord) :
    Memory.wfFrom lo (Memory.place m a v) = true := by
  induction m generalizing lo with
  | nil => exact (Memory.wfFrom_cons ..).2 ⟨hlo, ha, hv, rfl⟩
  | cons c rest ih =>
    obtain ⟨k, w⟩ := c
    have hk : k ≠ a := hne (k, w) (by simp)
    have hm' := (Memory.wfFrom_cons lo k w rest).1 hm
    simp only [Memory.place]
    split
    · exact (Memory.wfFrom_cons ..).2 ⟨hlo, ha, hv, (Memory.wfFrom_cons ..).2 ⟨by omega, hm'.2⟩⟩
    · exact (Memory.wfFrom_cons ..).2
        ⟨hm'.1, hm'.2.1, hm'.2.2.1, ih hm'.2.2.2 (fun c hc => hne c (by simp [hc])) (by omega)⟩

theorem Memory.wfFrom_insert {lo : Nat} {m : Memory} (hm : Memory.wfFrom lo m = true) {a : Nat} (hlo : lo ≤ a)
    (ha : a < 2 ^ 24) (v : Word) : Memory.wfFrom lo (Memory.insert m a v) = true := by
  have hne : ∀ c ∈ Memory.erase m a, c.1 ≠ a := fun c hc => by simpa [Memory.erase] using (List.mem_filter.1 hc).2
  by_cases hv : v = Config.unlistedWord
  · simpa [Memory.insert, hv] using Memory.wfFrom_erase hm a
  · simpa [Memory.insert, hv] using Memory.wfFrom_place (Memory.wfFrom_erase hm a) hne hlo ha hv

@[simp] theorem Memory.wf_nil : Memory.wf [] = true := rfl

/-- A write keeps the canonical form. -/
theorem Memory.wf_write {m : Memory} (hm : Memory.wf m = true) (a : Addr) (v : Word) :
    Memory.wf (Memory.write m a v) = true :=
  Memory.wfFrom_insert hm (Nat.zero_le _) a.isLt v

/-- Placing words keeps the canonical form. -/
theorem Memory.wf_writeFrom {m : Memory} (hm : Memory.wf m = true) (a : Addr) (vs : List Word) :
    Memory.wf (Memory.writeFrom m a vs) = true := by
  induction vs generalizing m a with
  | nil => exact hm
  | cons v vs ih => exact ih (Memory.wf_write hm a v) _

/-- What placed words leave outside them: an address none of them has reads as before. -/
theorem Memory.read_writeFrom_of_ne (m : Memory) (a b : Addr) (vs : List Word)
    (h : ∀ k < vs.length, b ≠ a + BitVec.ofNat 24 k) : Memory.read (Memory.writeFrom m a vs) b = Memory.read m b := by
  induction vs generalizing m a with
  | nil => rfl
  | cons v vs ih =>
    have h0 : b ≠ a := by simpa using h 0 (by simp)
    rw [Memory.writeFrom, ih, Memory.read_write_of_ne _ _ _ _ h0]
    intro k hk
    have := h (k + 1) (by simpa using hk)
    rwa [BitVec.ofNat_add, BitVec.add_comm (BitVec.ofNat 24 k), ← BitVec.add_assoc] at this

end Sys2Proof.Machine
end

