-- ==== Sys2Proof/Laws/Assembler.lean ====
section
/-! SUPPORT. What the assembler's operations do, said once each. -/

namespace Sys2Proof.Machine

/-- A sequence that is accepted: its first part was, with a value from which the rest is. -/
theorem except_bind_eq_ok {ε α β : Type} {x : Except ε α} {f : α → Except ε β} {b : β} :
    (x >>= f) = .ok b ↔ ∃ a, x = .ok a ∧ f a = .ok b := by
  cases x with
  | error e => exact ⟨fun h => (by cases h), fun ⟨_, h, _⟩ => (by cases h)⟩
  | ok a => exact ⟨fun h => ⟨a, rfl, h⟩, fun ⟨_, h, hf⟩ => (by cases h; exact hf)⟩

theorem fitsSlot_iff (n : Nat) (v : Int) : fitsSlot n v = true ↔ -(2 : Int) ^ (n - 1) ≤ v ∧ v ≤ (2 : Int) ^ n - 1 := by
  simp [fitsSlot]

/-- A value that fits its slot. -/
theorem slotField_of_fits {n : Nat} {v : Int} (h : -(2 : Int) ^ (n - 1) ≤ v ∧ v ≤ (2 : Int) ^ n - 1) :
    slotField n v = .ok (BitVec.ofInt n v) := by
  simp [slotField, (fitsSlot_iff n v).2 h]

/-- A value that is too wide for its slot. -/
theorem slotField_of_not_fits {n : Nat} {v : Int} (h : ¬ (-(2 : Int) ^ (n - 1) ≤ v ∧ v ≤ (2 : Int) ^ n - 1)) :
    slotField n v = .error .tooWide := by
  have : ¬ fitsSlot n v = true := fun hf => h ((fitsSlot_iff n v).1 hf)
  simp [slotField, this]

end Sys2Proof.Machine
end

