-- ==== Sys2Proof/Laws/State.lean ====
section
/-! SUPPORT. One lemma per field per update of the state, and what the accessors read after an update. -/

namespace Sys2Proof.Machine

/-! ### writeReg -/

@[simp] theorem State.writeReg_x (s : State) (r : RegNum) (v : Word) : (s.writeReg r v).x = s.x.set r.toNat v r.isLt := rfl
@[simp] theorem State.writeReg_pc (s : State) (r : RegNum) (v : Word) : (s.writeReg r v).pc = s.pc := rfl
@[simp] theorem State.writeReg_cr (s : State) (r : RegNum) (v : Word) : (s.writeReg r v).cr = s.cr := rfl
@[simp] theorem State.writeReg_imem (s : State) (r : RegNum) (v : Word) : (s.writeReg r v).imem = s.imem := rfl
@[simp] theorem State.writeReg_dmem (s : State) (r : RegNum) (v : Word) : (s.writeReg r v).dmem = s.dmem := rfl

/-! ### setCr -/

@[simp] theorem State.setCr_x (s : State) (v : Query) : (s.setCr v).x = s.x := rfl
@[simp] theorem State.setCr_pc (s : State) (v : Query) : (s.setCr v).pc = s.pc := rfl
@[simp] theorem State.setCr_cr (s : State) (v : Query) : (s.setCr v).cr = v := rfl
@[simp] theorem State.setCr_imem (s : State) (v : Query) : (s.setCr v).imem = s.imem := rfl
@[simp] theorem State.setCr_dmem (s : State) (v : Query) : (s.setCr v).dmem = s.dmem := rfl

/-! ### setPc -/

@[simp] theorem State.setPc_x (s : State) (t : Addr) : (s.setPc t).x = s.x := rfl
@[simp] theorem State.setPc_pc (s : State) (t : Addr) : (s.setPc t).pc = t := rfl
@[simp] theorem State.setPc_cr (s : State) (t : Addr) : (s.setPc t).cr = s.cr := rfl
@[simp] theorem State.setPc_imem (s : State) (t : Addr) : (s.setPc t).imem = s.imem := rfl
@[simp] theorem State.setPc_dmem (s : State) (t : Addr) : (s.setPc t).dmem = s.dmem := rfl

/-! ### advance -/

@[simp] theorem State.advance_x (s : State) : (s.advance).x = s.x := rfl
@[simp] theorem State.advance_pc (s : State) : (s.advance).pc = s.pc + 1#24 := rfl
@[simp] theorem State.advance_cr (s : State) : (s.advance).cr = s.cr := rfl
@[simp] theorem State.advance_imem (s : State) : (s.advance).imem = s.imem := rfl
@[simp] theorem State.advance_dmem (s : State) : (s.advance).dmem = s.dmem := rfl

/-! ### store -/

@[simp] theorem State.store_x (s : State) (a : Addr) (v : Word) : (s.store a v).x = s.x := rfl
@[simp] theorem State.store_pc (s : State) (a : Addr) (v : Word) : (s.store a v).pc = s.pc := rfl
@[simp] theorem State.store_cr (s : State) (a : Addr) (v : Word) : (s.store a v).cr = s.cr := rfl
@[simp] theorem State.store_imem (s : State) (a : Addr) (v : Word) : (s.store a v).imem = s.imem := rfl
@[simp] theorem State.store_dmem (s : State) (a : Addr) (v : Word) : (s.store a v).dmem = Memory.write s.dmem a v := rfl

/-! ### withFetchWord -/

@[simp] theorem State.withFetchWord_x (s : State) (nbits w : Nat) : (s.withFetchWord nbits w).x = s.x := rfl
@[simp] theorem State.withFetchWord_pc (s : State) (nbits w : Nat) : (s.withFetchWord nbits w).pc = s.pc := rfl
@[simp] theorem State.withFetchWord_cr (s : State) (nbits w : Nat) : (s.withFetchWord nbits w).cr = s.cr := rfl
@[simp] theorem State.withFetchWord_imem (s : State) (nbits w : Nat) : (s.withFetchWord nbits w).imem = Memory.write s.imem s.pc (BitVec.ofNat 32 (w % 2 ^ nbits)) := rfl
@[simp] theorem State.withFetchWord_dmem (s : State) (nbits w : Nat) : (s.withFetchWord nbits w).dmem = s.dmem := rfl

/-! ### What the accessors read after an update -/

theorem State.readReg_writeReg (s : State) (r q : RegNum) (v : Word) :
    (s.writeReg r v).readReg q = if q = r then v else s.readReg q := by
  simp only [State.readReg, State.writeReg, Vector.getElem_set, BitVec.toNat_inj, eq_comm]

@[simp] theorem State.readReg_writeReg_self (s : State) (r : RegNum) (v : Word) : (s.writeReg r v).readReg r = v := by
  simp [State.readReg_writeReg]

@[simp] theorem State.readReg_writeReg_of_ne (s : State) (r q : RegNum) (v : Word) (h : q ≠ r) :
    (s.writeReg r v).readReg q = s.readReg q := by
  simp [State.readReg_writeReg, h]

@[simp] theorem State.load_writeReg (s : State) (r : RegNum) (v : Word) (q : Addr) : (s.writeReg r v).load q = s.load q := rfl
@[simp] theorem State.fetchWord_writeReg (s : State) (r : RegNum) (v : Word) : (s.writeReg r v).fetchWord = s.fetchWord := rfl
@[simp] theorem State.readReg_setCr (s : State) (v : Query) (q : RegNum) : (s.setCr v).readReg q = s.readReg q := rfl
@[simp] theorem State.load_setCr (s : State) (v : Query) (q : Addr) : (s.setCr v).load q = s.load q := rfl
@[simp] theorem State.fetchWord_setCr (s : State) (v : Query) : (s.setCr v).fetchWord = s.fetchWord := rfl
@[simp] theorem State.readReg_setPc (s : State) (t : Addr) (q : RegNum) : (s.setPc t).readReg q = s.readReg q := rfl
@[simp] theorem State.load_setPc (s : State) (t : Addr) (q : Addr) : (s.setPc t).load q = s.load q := rfl
@[simp] theorem State.readReg_advance (s : State) (q : RegNum) : (s.advance).readReg q = s.readReg q := rfl
@[simp] theorem State.load_advance (s : State) (q : Addr) : (s.advance).load q = s.load q := rfl
@[simp] theorem State.readReg_store (s : State) (a : Addr) (v : Word) (q : RegNum) : (s.store a v).readReg q = s.readReg q := rfl
@[simp] theorem State.fetchWord_store (s : State) (a : Addr) (v : Word) : (s.store a v).fetchWord = s.fetchWord := rfl
@[simp] theorem State.readReg_withFetchWord (s : State) (nbits w : Nat) (q : RegNum) : (s.withFetchWord nbits w).readReg q = s.readReg q := rfl
@[simp] theorem State.load_withFetchWord (s : State) (nbits w : Nat) (q : Addr) : (s.withFetchWord nbits w).load q = s.load q := rfl

/-! ### The start of a program -/

@[simp] theorem State.launch_x (resetPc : Addr) (resetX : Vector Word 16) (imem dmem : Memory) :
    (State.launch resetPc resetX imem dmem).x = resetX := rfl
@[simp] theorem State.launch_pc (resetPc : Addr) (resetX : Vector Word 16) (imem dmem : Memory) :
    (State.launch resetPc resetX imem dmem).pc = resetPc := rfl
@[simp] theorem State.launch_cr (resetPc : Addr) (resetX : Vector Word 16) (imem dmem : Memory) :
    (State.launch resetPc resetX imem dmem).cr = 0b111#3 := rfl
@[simp] theorem State.launch_imem (resetPc : Addr) (resetX : Vector Word 16) (imem dmem : Memory) :
    (State.launch resetPc resetX imem dmem).imem = imem := rfl
@[simp] theorem State.launch_dmem (resetPc : Addr) (resetX : Vector Word 16) (imem dmem : Memory) :
    (State.launch resetPc resetX imem dmem).dmem = dmem := rfl

end Sys2Proof.Machine
end

