-- ==== Sys2Proof/Laws/Cycle.lean ====
section
/-! SUPPORT. What the two shared frames of the meanings can do, said once: `conditionally` and `writeResult` run or skip
(40_execution_cycle.md R90, R95), and always answer a next state. -/

namespace Sys2Proof.Machine

theorem queryPasses_iff (cq cr : Query) : queryPasses cq cr = true ↔ cq &&& cr ≠ 0b000#3 := by
  simp [queryPasses]

/-- Everything `conditionally` can do: the instruction's own effect, or the advance. -/
theorem conditionally_next {cq : Query} {s done t : State} :
    conditionally cq s done = .next t ↔
      (queryPasses cq s.cr = true ∧ t = done) ∨ (queryPasses cq s.cr = false ∧ t = s.advance) := by
  cases h : queryPasses cq s.cr <;> simp [conditionally, h, eq_comm]

theorem conditionally_of_passes {cq : Query} {s : State} (h : cq &&& s.cr ≠ 0b000#3) (done : State) :
    conditionally cq s done = .next done := by
  simp [conditionally, (queryPasses_iff cq s.cr).2 h]

theorem conditionally_of_not_passes {cq : Query} {s : State} (h : ¬ cq &&& s.cr ≠ 0b000#3) (done : State) :
    conditionally cq s done = .next s.advance := by
  have : ¬ queryPasses cq s.cr = true := fun hp => h ((queryPasses_iff cq s.cr).1 hp)
  simp [conditionally, this]

/-- Everything `writeResult` can do. -/
theorem writeResult_next {cq : Query} {rd : RegNum} {v : Word} {s t : State} :
    writeResult cq rd v s = .next t ↔
      (queryPasses cq s.cr = true ∧ t = (s.writeReg rd v).advance) ∨ (queryPasses cq s.cr = false ∧ t = s.advance) :=
  conditionally_next

theorem writeResult_of_passes {cq : Query} {s : State} (h : cq &&& s.cr ≠ 0b000#3) (rd : RegNum) (v : Word) :
    writeResult cq rd v s = .next (s.writeReg rd v).advance :=
  conditionally_of_passes h _

theorem writeResult_of_not_passes {cq : Query} {s : State} (h : ¬ cq &&& s.cr ≠ 0b000#3) (rd : RegNum) (v : Word) :
    writeResult cq rd v s = .next s.advance :=
  conditionally_of_not_passes h _

@[simp] theorem State.load_store (s : State) (a b : Addr) (v : Word) :
    (s.store a v).load b = if b = a then v else s.load b :=
  Memory.read_write s.dmem a b v

end Sys2Proof.Machine
end

