-- ==== Sys2Proof/Laws/Encoding.lean ====
section
/-! SUPPORT. Each format's word read back field by field (30_encoding.md R62 to R67). -/

namespace Sys2Proof

/-- The bits of a placed field. -/
theorem placeField_getLsbD {n : Nat} (v : BitVec n) (k i : Nat) :
    (placeField v k).getLsbD i = (decide (i < 32) && !decide (i < k) && v.getLsbD (i - k)) := by
  by_cases h : i < 32
  · simp [placeField, h]
  · simp [placeField, h]

/-! ### wordThreeReg -/

@[simp] theorem immediateBit_wordThreeReg (op : BitVec 4) (cq : Query) (rd rs ri : RegNum) :
    immediateBit (wordThreeReg op cq rd rs ri) = false := by
  simp [immediateBit, wordThreeReg, wordHead, placeField]

@[simp] theorem opcodeField_wordThreeReg (op : BitVec 4) (cq : Query) (rd rs ri : RegNum) :
    opcodeField (wordThreeReg op cq rd rs ri) = op := by
  ext i hi
  simp only [opcodeField, BitVec.getElem_extractLsb', wordThreeReg, wordHead, BitVec.getLsbD_or, placeField_getLsbD]
  interval_cases i <;> simp

@[simp] theorem queryField_wordThreeReg (op : BitVec 4) (cq : Query) (rd rs ri : RegNum) :
    queryField (wordThreeReg op cq rd rs ri) = cq := by
  ext i hi
  simp only [queryField, BitVec.getElem_extractLsb', wordThreeReg, wordHead, BitVec.getLsbD_or, placeField_getLsbD]
  interval_cases i <;> simp

@[simp] theorem rdField_wordThreeReg (op : BitVec 4) (cq : Query) (rd rs ri : RegNum) :
    rdField (wordThreeReg op cq rd rs ri) = rd := by
  ext i hi
  simp only [rdField, BitVec.getElem_extractLsb', wordThreeReg, wordHead, BitVec.getLsbD_or, placeField_getLsbD]
  interval_cases i <;> simp

@[simp] theorem rsField_wordThreeReg (op : BitVec 4) (cq : Query) (rd rs ri : RegNum) :
    rsField (wordThreeReg op cq rd rs ri) = rs := by
  ext i hi
  simp only [rsField, BitVec.getElem_extractLsb', wordThreeReg, wordHead, BitVec.getLsbD_or, placeField_getLsbD]
  interval_cases i <;> simp

@[simp] theorem riField_wordThreeReg (op : BitVec 4) (cq : Query) (rd rs ri : RegNum) :
    riField (wordThreeReg op cq rd rs ri) = ri := by
  ext i hi
  simp only [riField, BitVec.getElem_extractLsb', wordThreeReg, wordHead, BitVec.getLsbD_or, placeField_getLsbD]
  interval_cases i <;> simp

/-! ### wordThreeImm -/

@[simp] theorem immediateBit_wordThreeImm (op : BitVec 4) (cq : Query) (rd rs : RegNum) (imm : BitVec 16) :
    immediateBit (wordThreeImm op cq rd rs imm) = true := by
  simp [immediateBit, wordThreeImm, wordHead, placeField]

@[simp] theorem opcodeField_wordThreeImm (op : BitVec 4) (cq : Query) (rd rs : RegNum) (imm : BitVec 16) :
    opcodeField (wordThreeImm op cq rd rs imm) = op := by
  ext i hi
  simp only [opcodeField, BitVec.getElem_extractLsb', wordThreeImm, wordHead, BitVec.getLsbD_or, placeField_getLsbD]
  interval_cases i <;> simp

@[simp] theorem queryField_wordThreeImm (op : BitVec 4) (cq : Query) (rd rs : RegNum) (imm : BitVec 16) :
    queryField (wordThreeImm op cq rd rs imm) = cq := by
  ext i hi
  simp only [queryField, BitVec.getElem_extractLsb', wordThreeImm, wordHead, BitVec.getLsbD_or, placeField_getLsbD]
  interval_cases i <;> simp

@[simp] theorem rdField_wordThreeImm (op : BitVec 4) (cq : Query) (rd rs : RegNum) (imm : BitVec 16) :
    rdField (wordThreeImm op cq rd rs imm) = rd := by
  ext i hi
  simp only [rdField, BitVec.getElem_extractLsb', wordThreeImm, wordHead, BitVec.getLsbD_or, placeField_getLsbD]
  interval_cases i <;> simp

@[simp] theorem rsField_wordThreeImm (op : BitVec 4) (cq : Query) (rd rs : RegNum) (imm : BitVec 16) :
    rsField (wordThreeImm op cq rd rs imm) = rs := by
  ext i hi
  simp only [rsField, BitVec.getElem_extractLsb', wordThreeImm, wordHead, BitVec.getLsbD_or, placeField_getLsbD]
  interval_cases i <;> simp

@[simp] theorem imm16Field_wordThreeImm (op : BitVec 4) (cq : Query) (rd rs : RegNum) (imm : BitVec 16) :
    imm16Field (wordThreeImm op cq rd rs imm) = imm := by
  ext i hi
  simp only [imm16Field, BitVec.getElem_extractLsb', wordThreeImm, wordHead, BitVec.getLsbD_or, placeField_getLsbD]
  interval_cases i <;> simp

/-! ### wordTwoReg -/

@[simp] theorem immediateBit_wordTwoReg (op : BitVec 4) (cq : Query) (rd ri : RegNum) :
    immediateBit (wordTwoReg op cq rd ri) = false := by
  simp [immediateBit, wordTwoReg, wordHead, placeField]

@[simp] theorem opcodeField_wordTwoReg (op : BitVec 4) (cq : Query) (rd ri : RegNum) :
    opcodeField (wordTwoReg op cq rd ri) = op := by
  ext i hi
  simp only [opcodeField, BitVec.getElem_extractLsb', wordTwoReg, wordHead, BitVec.getLsbD_or, placeField_getLsbD]
  interval_cases i <;> simp

@[simp] theorem queryField_wordTwoReg (op : BitVec 4) (cq : Query) (rd ri : RegNum) :
    queryField (wordTwoReg op cq rd ri) = cq := by
  ext i hi
  simp only [queryField, BitVec.getElem_extractLsb', wordTwoReg, wordHead, BitVec.getLsbD_or, placeField_getLsbD]
  interval_cases i <;> simp

@[simp] theorem rdField_wordTwoReg (op : BitVec 4) (cq : Query) (rd ri : RegNum) :
    rdField (wordTwoReg op cq rd ri) = rd := by
  ext i hi
  simp only [rdField, BitVec.getElem_extractLsb', wordTwoReg, wordHead, BitVec.getLsbD_or, placeField_getLsbD]
  interval_cases i <;> simp

@[simp] theorem riField_wordTwoReg (op : BitVec 4) (cq : Query) (rd ri : RegNum) :
    riField (wordTwoReg op cq rd ri) = ri := by
  ext i hi
  simp only [riField, BitVec.getElem_extractLsb', wordTwoReg, wordHead, BitVec.getLsbD_or, placeField_getLsbD]
  interval_cases i <;> simp

/-! ### wordTwoImm -/

@[simp] theorem immediateBit_wordTwoImm (op : BitVec 4) (cq : Query) (rd : RegNum) (imm : BitVec 20) :
    immediateBit (wordTwoImm op cq rd imm) = true := by
  simp [immediateBit, wordTwoImm, wordHead, placeField]

@[simp] theorem opcodeField_wordTwoImm (op : BitVec 4) (cq : Query) (rd : RegNum) (imm : BitVec 20) :
    opcodeField (wordTwoImm op cq rd imm) = op := by
  ext i hi
  simp only [opcodeField, BitVec.getElem_extractLsb', wordTwoImm, wordHead, BitVec.getLsbD_or, placeField_getLsbD]
  interval_cases i <;> simp

@[simp] theorem queryField_wordTwoImm (op : BitVec 4) (cq : Query) (rd : RegNum) (imm : BitVec 20) :
    queryField (wordTwoImm op cq rd imm) = cq := by
  ext i hi
  simp only [queryField, BitVec.getElem_extractLsb', wordTwoImm, wordHead, BitVec.getLsbD_or, placeField_getLsbD]
  interval_cases i <;> simp

@[simp] theorem rdField_wordTwoImm (op : BitVec 4) (cq : Query) (rd : RegNum) (imm : BitVec 20) :
    rdField (wordTwoImm op cq rd imm) = rd := by
  ext i hi
  simp only [rdField, BitVec.getElem_extractLsb', wordTwoImm, wordHead, BitVec.getLsbD_or, placeField_getLsbD]
  interval_cases i <;> simp

@[simp] theorem imm20Field_wordTwoImm (op : BitVec 4) (cq : Query) (rd : RegNum) (imm : BitVec 20) :
    imm20Field (wordTwoImm op cq rd imm) = imm := by
  ext i hi
  simp only [imm20Field, BitVec.getElem_extractLsb', wordTwoImm, wordHead, BitVec.getLsbD_or, placeField_getLsbD]
  interval_cases i <;> simp

/-! ### wordOneReg -/

@[simp] theorem immediateBit_wordOneReg (op : BitVec 4) (cq : Query) (ri : RegNum) :
    immediateBit (wordOneReg op cq ri) = false := by
  simp [immediateBit, wordOneReg, wordHead, placeField]

@[simp] theorem opcodeField_wordOneReg (op : BitVec 4) (cq : Query) (ri : RegNum) :
    opcodeField (wordOneReg op cq ri) = op := by
  ext i hi
  simp only [opcodeField, BitVec.getElem_extractLsb', wordOneReg, wordHead, BitVec.getLsbD_or, placeField_getLsbD]
  interval_cases i <;> simp

@[simp] theorem queryField_wordOneReg (op : BitVec 4) (cq : Query) (ri : RegNum) :
    queryField (wordOneReg op cq ri) = cq := by
  ext i hi
  simp only [queryField, BitVec.getElem_extractLsb', wordOneReg, wordHead, BitVec.getLsbD_or, placeField_getLsbD]
  interval_cases i <;> simp

@[simp] theorem riField_wordOneReg (op : BitVec 4) (cq : Query) (ri : RegNum) :
    riField (wordOneReg op cq ri) = ri := by
  ext i hi
  simp only [riField, BitVec.getElem_extractLsb', wordOneReg, wordHead, BitVec.getLsbD_or, placeField_getLsbD]
  interval_cases i <;> simp

/-! ### wordOneImm -/

@[simp] theorem immediateBit_wordOneImm (op : BitVec 4) (cq : Query) (imm : BitVec 24) :
    immediateBit (wordOneImm op cq imm) = true := by
  simp [immediateBit, wordOneImm, wordHead, placeField]

@[simp] theorem opcodeField_wordOneImm (op : BitVec 4) (cq : Query) (imm : BitVec 24) :
    opcodeField (wordOneImm op cq imm) = op := by
  ext i hi
  simp only [opcodeField, BitVec.getElem_extractLsb', wordOneImm, wordHead, BitVec.getLsbD_or, placeField_getLsbD]
  interval_cases i <;> simp

@[simp] theorem queryField_wordOneImm (op : BitVec 4) (cq : Query) (imm : BitVec 24) :
    queryField (wordOneImm op cq imm) = cq := by
  ext i hi
  simp only [queryField, BitVec.getElem_extractLsb', wordOneImm, wordHead, BitVec.getLsbD_or, placeField_getLsbD]
  interval_cases i <;> simp

@[simp] theorem imm24Field_wordOneImm (op : BitVec 4) (cq : Query) (imm : BitVec 24) :
    imm24Field (wordOneImm op cq imm) = imm := by
  ext i hi
  simp only [imm24Field, BitVec.getElem_extractLsb', wordOneImm, wordHead, BitVec.getLsbD_or, placeField_getLsbD]
  interval_cases i <;> simp

/-! ### The word of each format as its fields side by side -/

theorem wordThreeReg_eq_append (op : BitVec 4) (cq : Query) (rd rs ri : RegNum) :
    wordThreeReg op cq rd rs ri = op ++ cq ++ 0#1 ++ rd ++ rs ++ 0#12 ++ ri := by
  apply BitVec.eq_of_getLsbD_eq
  intro i hi
  simp only [wordThreeReg, wordHead, BitVec.getLsbD_or, placeField_getLsbD, BitVec.getLsbD_append]
  interval_cases i <;> simp

theorem wordThreeImm_eq_append (op : BitVec 4) (cq : Query) (rd rs : RegNum) (imm : BitVec 16) :
    wordThreeImm op cq rd rs imm = op ++ cq ++ 1#1 ++ rd ++ rs ++ imm := by
  apply BitVec.eq_of_getLsbD_eq
  intro i hi
  simp only [wordThreeImm, wordHead, BitVec.getLsbD_or, placeField_getLsbD, BitVec.getLsbD_append]
  interval_cases i <;> simp

theorem wordTwoReg_eq_append (op : BitVec 4) (cq : Query) (rd ri : RegNum) :
    wordTwoReg op cq rd ri = op ++ cq ++ 0#1 ++ rd ++ 0#16 ++ ri := by
  apply BitVec.eq_of_getLsbD_eq
  intro i hi
  simp only [wordTwoReg, wordHead, BitVec.getLsbD_or, placeField_getLsbD, BitVec.getLsbD_append]
  interval_cases i <;> simp

theorem wordTwoImm_eq_append (op : BitVec 4) (cq : Query) (rd : RegNum) (imm : BitVec 20) :
    wordTwoImm op cq rd imm = op ++ cq ++ 1#1 ++ rd ++ imm := by
  apply BitVec.eq_of_getLsbD_eq
  intro i hi
  simp only [wordTwoImm, wordHead, BitVec.getLsbD_or, placeField_getLsbD, BitVec.getLsbD_append]
  interval_cases i <;> simp

theorem wordOneReg_eq_append (op : BitVec 4) (cq : Query) (ri : RegNum) :
    wordOneReg op cq ri = op ++ cq ++ 0#1 ++ 0#20 ++ ri := by
  apply BitVec.eq_of_getLsbD_eq
  intro i hi
  simp only [wordOneReg, wordHead, BitVec.getLsbD_or, placeField_getLsbD, BitVec.getLsbD_append]
  interval_cases i <;> simp

theorem wordOneImm_eq_append (op : BitVec 4) (cq : Query) (imm : BitVec 24) :
    wordOneImm op cq imm = op ++ cq ++ 1#1 ++ imm := by
  apply BitVec.eq_of_getLsbD_eq
  intro i hi
  simp only [wordOneImm, wordHead, BitVec.getLsbD_or, placeField_getLsbD, BitVec.getLsbD_append]
  interval_cases i <;> simp

end Sys2Proof
end

