-- ==== Sys2Proof/Laws/PerInstr.lean ====
section
/-! SUPPORT. Statements made per instruction. The family `EncodesIntoItsRow`: an instruction's word matches the instruction's row
of spec/opcode_table.json and has zero in its unused bits (30_encoding.md R71, R77). -/

namespace Sys2Proof.Laws

/-! ### Each format: the row, and the unused bits -/

theorem wordThreeReg_and_rowMask (op : BitVec 4) (cq : Query) (rd rs ri : RegNum) :
    wordThreeReg op cq rd rs ri &&& rowMask = placeField op 28 := by
  ext i hi
  simp only [wordThreeReg, wordHead, rowMask, placeField, BitVec.getElem_and, BitVec.getElem_or, BitVec.getElem_shiftLeft,
    BitVec.getElem_setWidth, BitVec.getLsbD_ofBool]
  interval_cases i <;> simp

theorem canonicalWord_wordThreeReg (op : BitVec 4) (cq : Query) (rd rs ri : RegNum) (h : op.toNat ≤ 11) :
    canonicalWord (wordThreeReg op cq rd rs ri) = true := by
  have hi : (wordThreeReg op cq rd rs ri).getLsbD 24 = false := immediateBit_wordThreeReg op cq rd rs ri
  have ho : (wordThreeReg op cq rd rs ri).extractLsb' 28 4 = op := opcodeField_wordThreeReg op cq rd rs ri
  have hm : unusedMask (wordThreeReg op cq rd rs ri) = 0x0000FFF0#32 := by
    rw [unusedMask, hi, ho, if_neg (by decide), if_pos h]
  rw [canonicalWord, hm, beq_iff_eq]
  ext i hi
  simp only [wordThreeReg, wordHead, placeField, BitVec.getElem_and, BitVec.getElem_or, BitVec.getElem_shiftLeft,
    BitVec.getElem_setWidth, BitVec.getLsbD_ofBool]
  interval_cases i <;> simp

theorem wordTwoReg_and_rowMask (op : BitVec 4) (cq : Query) (rd ri : RegNum) :
    wordTwoReg op cq rd ri &&& rowMask = placeField op 28 := by
  ext i hi
  simp only [wordTwoReg, wordHead, rowMask, placeField, BitVec.getElem_and, BitVec.getElem_or, BitVec.getElem_shiftLeft,
    BitVec.getElem_setWidth, BitVec.getLsbD_ofBool]
  interval_cases i <;> simp

theorem canonicalWord_wordTwoReg (op : BitVec 4) (cq : Query) (rd ri : RegNum) (h : 12 ≤ op.toNat ∧ op.toNat ≤ 14) :
    canonicalWord (wordTwoReg op cq rd ri) = true := by
  have hi : (wordTwoReg op cq rd ri).getLsbD 24 = false := immediateBit_wordTwoReg op cq rd ri
  have ho : (wordTwoReg op cq rd ri).extractLsb' 28 4 = op := opcodeField_wordTwoReg op cq rd ri
  have hm : unusedMask (wordTwoReg op cq rd ri) = 0x000FFFF0#32 := by
    rw [unusedMask, hi, ho, if_neg (by decide), if_neg (by omega), if_pos h.2]
  rw [canonicalWord, hm, beq_iff_eq]
  ext i hi
  simp only [wordTwoReg, wordHead, placeField, BitVec.getElem_and, BitVec.getElem_or, BitVec.getElem_shiftLeft,
    BitVec.getElem_setWidth, BitVec.getLsbD_ofBool]
  interval_cases i <;> simp

theorem wordOneReg_and_rowMask (op : BitVec 4) (cq : Query) (ri : RegNum) :
    wordOneReg op cq ri &&& rowMask = placeField op 28 := by
  ext i hi
  simp only [wordOneReg, wordHead, rowMask, placeField, BitVec.getElem_and, BitVec.getElem_or, BitVec.getElem_shiftLeft,
    BitVec.getElem_setWidth, BitVec.getLsbD_ofBool]
  interval_cases i <;> simp

theorem canonicalWord_wordOneReg (op : BitVec 4) (cq : Query) (ri : RegNum) (h : 15 ≤ op.toNat) :
    canonicalWord (wordOneReg op cq ri) = true := by
  have hi : (wordOneReg op cq ri).getLsbD 24 = false := immediateBit_wordOneReg op cq ri
  have ho : (wordOneReg op cq ri).extractLsb' 28 4 = op := opcodeField_wordOneReg op cq ri
  have hm : unusedMask (wordOneReg op cq ri) = 0x00FFFFF0#32 := by
    rw [unusedMask, hi, ho, if_neg (by decide), if_neg (by omega), if_neg (by omega)]
  rw [canonicalWord, hm, beq_iff_eq]
  ext i hi
  simp only [wordOneReg, wordHead, placeField, BitVec.getElem_and, BitVec.getElem_or, BitVec.getElem_shiftLeft,
    BitVec.getElem_setWidth, BitVec.getLsbD_ofBool]
  interval_cases i <;> simp

theorem wordThreeImm_and_rowMask (op : BitVec 4) (cq : Query) (rd rs : RegNum) (imm : BitVec 16) :
    wordThreeImm op cq rd rs imm &&& rowMask = placeField op 28 ||| 0x01000000#32 := by
  ext i hi
  simp only [wordThreeImm, wordHead, rowMask, placeField, BitVec.getElem_and, BitVec.getElem_or, BitVec.getElem_shiftLeft,
    BitVec.getElem_setWidth, BitVec.getLsbD_ofBool]
  interval_cases i <;> simp

theorem canonicalWord_wordThreeImm (op : BitVec 4) (cq : Query) (rd rs : RegNum) (imm : BitVec 16) : canonicalWord (wordThreeImm op cq rd rs imm) = true := by
  have hi : (wordThreeImm op cq rd rs imm).getLsbD 24 = true := immediateBit_wordThreeImm op cq rd rs imm
  simp only [canonicalWord, unusedMask, hi, if_true, BitVec.and_zero, BEq.rfl]

theorem wordTwoImm_and_rowMask (op : BitVec 4) (cq : Query) (rd : RegNum) (imm : BitVec 20) :
    wordTwoImm op cq rd imm &&& rowMask = placeField op 28 ||| 0x01000000#32 := by
  ext i hi
  simp only [wordTwoImm, wordHead, rowMask, placeField, BitVec.getElem_and, BitVec.getElem_or, BitVec.getElem_shiftLeft,
    BitVec.getElem_setWidth, BitVec.getLsbD_ofBool]
  interval_cases i <;> simp

theorem canonicalWord_wordTwoImm (op : BitVec 4) (cq : Query) (rd : RegNum) (imm : BitVec 20) : canonicalWord (wordTwoImm op cq rd imm) = true := by
  have hi : (wordTwoImm op cq rd imm).getLsbD 24 = true := immediateBit_wordTwoImm op cq rd imm
  simp only [canonicalWord, unusedMask, hi, if_true, BitVec.and_zero, BEq.rfl]

theorem wordOneImm_and_rowMask (op : BitVec 4) (cq : Query) (imm : BitVec 24) :
    wordOneImm op cq imm &&& rowMask = placeField op 28 ||| 0x01000000#32 := by
  ext i hi
  simp only [wordOneImm, wordHead, rowMask, placeField, BitVec.getElem_and, BitVec.getElem_or, BitVec.getElem_shiftLeft,
    BitVec.getElem_setWidth, BitVec.getLsbD_ofBool]
  interval_cases i <;> simp

theorem canonicalWord_wordOneImm (op : BitVec 4) (cq : Query) (imm : BitVec 24) : canonicalWord (wordOneImm op cq imm) = true := by
  have hi : (wordOneImm op cq imm).getLsbD 24 = true := immediateBit_wordOneImm op cq imm
  simp only [canonicalWord, unusedMask, hi, if_true, BitVec.and_zero, BEq.rfl]

/-! ### The family -/

/-- The instruction's word matches its row under the mask, and its unused bits are zero. -/
def EncodesIntoItsRow.Statement (i : Instr) : Prop := encode i &&& rowMask = i.rowMatch ∧ canonicalWord (encode i) = true

theorem EncodesIntoItsRow.shlReg (cq : Query) (rd rs ri : RegNum) : Statement (.shlReg cq rd rs ri) :=
  ⟨(wordThreeReg_and_rowMask 0#4 _ _ _ _).trans rfl, canonicalWord_wordThreeReg _ _ _ _ _ (by decide)⟩

theorem EncodesIntoItsRow.shlImm (cq : Query) (rd rs : RegNum) (imm : BitVec 16) : Statement (.shlImm cq rd rs imm) :=
  ⟨(wordThreeImm_and_rowMask 0#4 _ _ _ _).trans rfl, canonicalWord_wordThreeImm _ _ _ _ _⟩

theorem EncodesIntoItsRow.shrReg (cq : Query) (rd rs ri : RegNum) : Statement (.shrReg cq rd rs ri) :=
  ⟨(wordThreeReg_and_rowMask 1#4 _ _ _ _).trans rfl, canonicalWord_wordThreeReg _ _ _ _ _ (by decide)⟩

theorem EncodesIntoItsRow.shrImm (cq : Query) (rd rs : RegNum) (imm : BitVec 16) : Statement (.shrImm cq rd rs imm) :=
  ⟨(wordThreeImm_and_rowMask 1#4 _ _ _ _).trans rfl, canonicalWord_wordThreeImm _ _ _ _ _⟩

theorem EncodesIntoItsRow.andReg (cq : Query) (rd rs ri : RegNum) : Statement (.andReg cq rd rs ri) :=
  ⟨(wordThreeReg_and_rowMask 2#4 _ _ _ _).trans rfl, canonicalWord_wordThreeReg _ _ _ _ _ (by decide)⟩

theorem EncodesIntoItsRow.andImm (cq : Query) (rd rs : RegNum) (imm : BitVec 16) : Statement (.andImm cq rd rs imm) :=
  ⟨(wordThreeImm_and_rowMask 2#4 _ _ _ _).trans rfl, canonicalWord_wordThreeImm _ _ _ _ _⟩

theorem EncodesIntoItsRow.iorReg (cq : Query) (rd rs ri : RegNum) : Statement (.iorReg cq rd rs ri) :=
  ⟨(wordThreeReg_and_rowMask 3#4 _ _ _ _).trans rfl, canonicalWord_wordThreeReg _ _ _ _ _ (by decide)⟩

theorem EncodesIntoItsRow.iorImm (cq : Query) (rd rs : RegNum) (imm : BitVec 16) : Statement (.iorImm cq rd rs imm) :=
  ⟨(wordThreeImm_and_rowMask 3#4 _ _ _ _).trans rfl, canonicalWord_wordThreeImm _ _ _ _ _⟩

theorem EncodesIntoItsRow.xorReg (cq : Query) (rd rs ri : RegNum) : Statement (.xorReg cq rd rs ri) :=
  ⟨(wordThreeReg_and_rowMask 4#4 _ _ _ _).trans rfl, canonicalWord_wordThreeReg _ _ _ _ _ (by decide)⟩

theorem EncodesIntoItsRow.xorImm (cq : Query) (rd rs : RegNum) (imm : BitVec 16) : Statement (.xorImm cq rd rs imm) :=
  ⟨(wordThreeImm_and_rowMask 4#4 _ _ _ _).trans rfl, canonicalWord_wordThreeImm _ _ _ _ _⟩

theorem EncodesIntoItsRow.stuReg (cq : Query) (rd rs ri : RegNum) : Statement (.stuReg cq rd rs ri) :=
  ⟨(wordThreeReg_and_rowMask 5#4 _ _ _ _).trans rfl, canonicalWord_wordThreeReg _ _ _ _ _ (by decide)⟩

theorem EncodesIntoItsRow.stuImm (cq : Query) (rd rs : RegNum) (imm : BitVec 16) : Statement (.stuImm cq rd rs imm) :=
  ⟨(wordThreeImm_and_rowMask 5#4 _ _ _ _).trans rfl, canonicalWord_wordThreeImm _ _ _ _ _⟩

theorem EncodesIntoItsRow.mulReg (cq : Query) (rd rs ri : RegNum) : Statement (.mulReg cq rd rs ri) :=
  ⟨(wordThreeReg_and_rowMask 6#4 _ _ _ _).trans rfl, canonicalWord_wordThreeReg _ _ _ _ _ (by decide)⟩

theorem EncodesIntoItsRow.mulImm (cq : Query) (rd rs : RegNum) (imm : BitVec 16) : Statement (.mulImm cq rd rs imm) :=
  ⟨(wordThreeImm_and_rowMask 6#4 _ _ _ _).trans rfl, canonicalWord_wordThreeImm _ _ _ _ _⟩

theorem EncodesIntoItsRow.divReg (cq : Query) (rd rs ri : RegNum) : Statement (.divReg cq rd rs ri) :=
  ⟨(wordThreeReg_and_rowMask 7#4 _ _ _ _).trans rfl, canonicalWord_wordThreeReg _ _ _ _ _ (by decide)⟩

theorem EncodesIntoItsRow.divImm (cq : Query) (rd rs : RegNum) (imm : BitVec 16) : Statement (.divImm cq rd rs imm) :=
  ⟨(wordThreeImm_and_rowMask 7#4 _ _ _ _).trans rfl, canonicalWord_wordThreeImm _ _ _ _ _⟩

theorem EncodesIntoItsRow.subReg (cq : Query) (rd rs ri : RegNum) : Statement (.subReg cq rd rs ri) :=
  ⟨(wordThreeReg_and_rowMask 8#4 _ _ _ _).trans rfl, canonicalWord_wordThreeReg _ _ _ _ _ (by decide)⟩

theorem EncodesIntoItsRow.subImm (cq : Query) (rd rs : RegNum) (imm : BitVec 16) : Statement (.subImm cq rd rs imm) :=
  ⟨(wordThreeImm_and_rowMask 8#4 _ _ _ _).trans rfl, canonicalWord_wordThreeImm _ _ _ _ _⟩

theorem EncodesIntoItsRow.addReg (cq : Query) (rd rs ri : RegNum) : Statement (.addReg cq rd rs ri) :=
  ⟨(wordThreeReg_and_rowMask 9#4 _ _ _ _).trans rfl, canonicalWord_wordThreeReg _ _ _ _ _ (by decide)⟩

theorem EncodesIntoItsRow.addImm (cq : Query) (rd rs : RegNum) (imm : BitVec 16) : Statement (.addImm cq rd rs imm) :=
  ⟨(wordThreeImm_and_rowMask 9#4 _ _ _ _).trans rfl, canonicalWord_wordThreeImm _ _ _ _ _⟩

theorem EncodesIntoItsRow.mldReg (cq : Query) (rd rs ri : RegNum) : Statement (.mldReg cq rd rs ri) :=
  ⟨(wordThreeReg_and_rowMask 10#4 _ _ _ _).trans rfl, canonicalWord_wordThreeReg _ _ _ _ _ (by decide)⟩

theorem EncodesIntoItsRow.mldImm (cq : Query) (rd rs : RegNum) (imm : BitVec 16) : Statement (.mldImm cq rd rs imm) :=
  ⟨(wordThreeImm_and_rowMask 10#4 _ _ _ _).trans rfl, canonicalWord_wordThreeImm _ _ _ _ _⟩

theorem EncodesIntoItsRow.mstReg (cq : Query) (rd rs ri : RegNum) : Statement (.mstReg cq rd rs ri) :=
  ⟨(wordThreeReg_and_rowMask 11#4 _ _ _ _).trans rfl, canonicalWord_wordThreeReg _ _ _ _ _ (by decide)⟩

theorem EncodesIntoItsRow.mstImm (cq : Query) (rd rs : RegNum) (imm : BitVec 16) : Statement (.mstImm cq rd rs imm) :=
  ⟨(wordThreeImm_and_rowMask 11#4 _ _ _ _).trans rfl, canonicalWord_wordThreeImm _ _ _ _ _⟩

theorem EncodesIntoItsRow.stlReg (cq : Query) (rd ri : RegNum) : Statement (.stlReg cq rd ri) :=
  ⟨(wordTwoReg_and_rowMask 12#4 _ _ _).trans rfl, canonicalWord_wordTwoReg _ _ _ _ (by decide)⟩

theorem EncodesIntoItsRow.stlImm (cq : Query) (rd : RegNum) (imm : BitVec 20) : Statement (.stlImm cq rd imm) :=
  ⟨(wordTwoImm_and_rowMask 12#4 _ _ _).trans rfl, canonicalWord_wordTwoImm _ _ _ _⟩

theorem EncodesIntoItsRow.cmpReg (cq : Query) (rd ri : RegNum) : Statement (.cmpReg cq rd ri) :=
  ⟨(wordTwoReg_and_rowMask 13#4 _ _ _).trans rfl, canonicalWord_wordTwoReg _ _ _ _ (by decide)⟩

theorem EncodesIntoItsRow.cmpImm (cq : Query) (rd : RegNum) (imm : BitVec 20) : Statement (.cmpImm cq rd imm) :=
  ⟨(wordTwoImm_and_rowMask 13#4 _ _ _).trans rfl, canonicalWord_wordTwoImm _ _ _ _⟩

theorem EncodesIntoItsRow.lnkReg (cq : Query) (rd ri : RegNum) : Statement (.lnkReg cq rd ri) :=
  ⟨(wordTwoReg_and_rowMask 14#4 _ _ _).trans rfl, canonicalWord_wordTwoReg _ _ _ _ (by decide)⟩

theorem EncodesIntoItsRow.lnkImm (cq : Query) (rd : RegNum) (imm : BitVec 20) : Statement (.lnkImm cq rd imm) :=
  ⟨(wordTwoImm_and_rowMask 14#4 _ _ _).trans rfl, canonicalWord_wordTwoImm _ _ _ _⟩

theorem EncodesIntoItsRow.jmpReg (cq : Query) (ri : RegNum) : Statement (.jmpReg cq ri) :=
  ⟨(wordOneReg_and_rowMask 15#4 _ _).trans rfl, canonicalWord_wordOneReg _ _ _ (by decide)⟩

theorem EncodesIntoItsRow.jmpImm (cq : Query) (imm : BitVec 24) : Statement (.jmpImm cq imm) :=
  ⟨(wordOneImm_and_rowMask 15#4 _ _).trans rfl, canonicalWord_wordOneImm _ _ _⟩

end Sys2Proof.Laws
end

