-- ==== Sys2Proof/Laws/Run.lean ====
section
/-! SUPPORT. Runs of the machine, one step at a time. -/

namespace Sys2Proof.Machine

@[simp] theorem run_zero (s : State) : Host.Core.run core 0 s = .next s := rfl

/-- A run of one step more, of any machine, from the state its first step gives. -/
theorem run_succ_of_step (M : Host.Core) {s t : M.State} (h : M.step s = .next t) (k : Nat) :
    M.run (k + 1) s = M.run k t := by
  simp only [Host.Core.run, h]

/-- A run of one step more, from the state the first step gives. -/
theorem run_succ {s t : State} (h : step s = .next t) (k : Nat) :
    Host.Core.run core (k + 1) s = Host.Core.run core k t :=
  run_succ_of_step core h k

/-- A run of two steps. -/
theorem run_two {s t u : State} (hs : step s = .next t) (ht : step t = .next u) : Host.Core.run core 2 s = .next u := by
  rw [run_succ hs, run_succ ht, run_zero]

/-- The step when the instruction at `pc` is known. -/
theorem step_of_decode {s : State} {i : Instr} (h : decode (Memory.read s.imem s.pc) = i) : step s = exec i s := by
  rw [← h]; rfl

end Sys2Proof.Machine
end

