-- ==== Sys2Proof/Tests/Slice0.lean ====
section
/-! SUPPORT. Tests and witnesses. The expected values are those of spec/95_test_vectors.md (its worked examples, quoted
from the source, and its derived vectors), never the model's own answer. Each `witness_<Name>` meets the hypotheses of
`Obligations.<Name>` together on concrete states and operands. -/

namespace Sys2Proof.Tests

open Sys2Proof.Machine Sys2Proof.Claims Sys2Proof.Safety

/-! ### WellFormed: a word with an unused bit set is refused (95_test_vectors.md 2.6) -/

theorem smoke_refuses_3arg_register_word : canonicalWord 0x9E76FFF8#32 = false ∧ canonicalWord 0x9E760008#32 = true :=
    by decide
theorem smoke_refuses_2arg_register_word : canonicalWord 0xCE7ABCD6#32 = false ∧ canonicalWord 0xCE700006#32 = true :=
    by decide
theorem smoke_refuses_1arg_register_word : canonicalWord 0xFE123451#32 = false ∧ canonicalWord 0xFE000001#32 = true :=
    by decide
theorem smoke_immediate_word_has_no_unused_bit : canonicalWord 0xDF6FFFFF#32 = true := by decide

/-! ### Decoding: one word of each row (95_test_vectors.md, sections 1 to 3) -/

theorem decode_shl_reg : decode 0x0E760008#32 = .shlReg 0b111#3 7#4 6#4 8#4 := by decide
theorem decode_shl_imm : decode 0x0F760004#32 = .shlImm 0b111#3 7#4 6#4 4#16 := by decide
theorem decode_shr_reg : decode 0x1E760008#32 = .shrReg 0b111#3 7#4 6#4 8#4 := by decide
theorem decode_shr_imm : decode 0x1F76001F#32 = .shrImm 0b111#3 7#4 6#4 31#16 := by decide
theorem decode_and_reg : decode 0x2E760008#32 = .andReg 0b111#3 7#4 6#4 8#4 := by decide
theorem decode_and_imm : decode 0x2176FFFF#32 = .andImm 0b000#3 7#4 6#4 0xFFFF#16 := by decide
theorem decode_ior_reg : decode 0x3E760008#32 = .iorReg 0b111#3 7#4 6#4 8#4 := by decide
theorem decode_ior_imm : decode 0x3F768000#32 = .iorImm 0b111#3 7#4 6#4 0x8000#16 := by decide
theorem decode_xor_reg : decode 0x4E660006#32 = .xorReg 0b111#3 6#4 6#4 6#4 := by decide
theorem decode_xor_imm : decode 0x4F7600FF#32 = .xorImm 0b111#3 7#4 6#4 0x00FF#16 := by decide
theorem decode_stu_reg : decode 0x5E760008#32 = .stuReg 0b111#3 7#4 6#4 8#4 := by decide
theorem decode_stu_imm : decode 0x5FEE8234#32 = .stuImm 0b111#3 14#4 14#4 0x8234#16 := by decide
theorem decode_mul_reg : decode 0x6E980007#32 = .mulReg 0b111#3 9#4 8#4 7#4 := by decide
theorem decode_mul_imm : decode 0x6F760003#32 = .mulImm 0b111#3 7#4 6#4 3#16 := by decide
theorem decode_div_reg : decode 0x7E860007#32 = .divReg 0b111#3 8#4 6#4 7#4 := by decide
theorem decode_div_imm : decode 0x7F76FFFE#32 = .divImm 0b111#3 7#4 6#4 0xFFFE#16 := by decide
theorem decode_sub_reg : decode 0x8EE40005#32 = .subReg 0b111#3 14#4 4#4 5#4 := by decide
theorem decode_sub_imm : decode 0x89660000#32 = .subImm 0b100#3 6#4 6#4 0#16 := by decide
theorem decode_add_reg : decode 0x9EE4000E#32 = .addReg 0b111#3 14#4 4#4 14#4 := by decide
theorem decode_add_imm : decode 0x994E0001#32 = .addImm 0b100#3 4#4 14#4 1#16 := by decide
theorem decode_mld_reg : decode 0xAE62000E#32 = .mldReg 0b111#3 6#4 2#4 14#4 := by decide
theorem decode_mld_imm : decode 0xAF2F0001#32 = .mldImm 0b111#3 2#4 15#4 1#16 := by decide
theorem decode_mst_reg : decode 0xBE020003#32 = .mstReg 0b111#3 0#4 2#4 3#4 := by decide
theorem decode_mst_imm : decode 0xBF8F0000#32 = .mstImm 0b111#3 8#4 15#4 0#16 := by decide
theorem decode_stl_reg : decode 0xC860000F#32 = .stlReg 0b100#3 6#4 15#4 := by decide
theorem decode_stl_imm : decode 0xC76FFFFF#32 = .stlImm 0b011#3 6#4 0xFFFFF#20 := by decide
theorem decode_cmp_reg : decode 0xDE500004#32 = .cmpReg 0b111#3 5#4 4#4 := by decide
theorem decode_cmp_imm : decode 0xD5600005#32 = .cmpImm 0b010#3 6#4 5#20 := by decide
theorem decode_lnk_reg : decode 0xEE100006#32 = .lnkReg 0b111#3 1#4 6#4 := by decide
theorem decode_lnk_imm : decode 0xEF1FFFEF#32 = .lnkImm 0b111#3 1#4 0xFFFEF#20 := by decide
theorem decode_jmp_reg : decode 0xF6000001#32 = .jmpReg 0b011#3 1#4 := by decide
theorem decode_jmp_imm : decode 0xFB000007#32 = .jmpImm 0b101#3 7#24 := by decide

theorem decode_all_zero : decode 0x00000000#32 = .shlReg 0b000#3 0#4 0#4 0#4 := by decide
theorem decode_ignores_unused_bits : decode 0x9E76FFF8#32 = .addReg 0b111#3 7#4 6#4 8#4 ∧
    decode 0xCE7ABCD6#32 = .stlReg 0b111#3 7#4 6#4 ∧ decode 0xFE123451#32 = .jmpReg 0b111#3 1#4 := by decide
theorem decode_table_word : decodeTableWord 32 0xDF200001 = some (.cmpImm 0b111#3 2#4 1#20) := by decide

/-! ### One step of each instruction (95_test_vectors.md 2.1 to 2.5) -/

/-- The start state of a vector: `pc = 0x000100`, `cr = 111`, every register 0 but those given. -/
def start (regs : List (RegNum × Word)) (dmem : Memory) : State :=
  regs.foldl (fun s r => s.writeReg r.1 r.2) (State.launch 0x000100#24 (Vector.replicate 16 0#32) [] dmem)

/-- What one step on the word `w` leaves, seen through `view`. -/
def viewAfter {α : Type} (view : State → α) (w : Nat) (s : State) : Option α :=
  match step (s.withFetchWord 32 w) with
  | .next t => some (view t)
  | .fault _ => none
  | .refused _ => none

def regAfter (w : Nat) (s : State) (r : RegNum) : Option (Word × Addr) := viewAfter (fun t => (t.readReg r, t.pc)) w s
def memAfter (w : Nat) (s : State) : Option (Memory × Addr) := viewAfter (fun t => (t.dmem, t.pc)) w s
def crAfter (w : Nat) (s : State) : Option (Query × Addr) := viewAfter (fun t => (t.cr, t.pc)) w s
def pcAfter (w : Nat) (s : State) : Option Addr := viewAfter State.pc w s

theorem test_shl_reg :
    regAfter 0x0E760008 (start [(6#4, 0x40000001#32), (8#4, 0x00000021#32)] []) 7#4 = some (0x80000002#32, 0x000101#24) :=
    by decide
theorem test_shl_imm :
    regAfter 0x0F76FFFF (start [(6#4, 0x00000001#32)] []) 7#4 = some (0x80000000#32, 0x000101#24) := by decide
theorem test_shr_reg :
    regAfter 0x1E760008 (start [(6#4, 0x80000001#32), (8#4, 0xFFFFFFE1#32)] []) 7#4 = some (0x40000000#32, 0x000101#24) :=
    by decide
theorem test_shr_imm :
    regAfter 0x1F760004 (start [(6#4, 0x80000000#32)] []) 7#4 = some (0x08000000#32, 0x000101#24) := by decide
theorem test_and_reg :
    regAfter 0x2E760008 (start [(6#4, 0xF0F0F0F0#32), (8#4, 0xFF00FF00#32)] []) 7#4 = some (0xF000F000#32, 0x000101#24) :=
    by decide
theorem test_and_imm :
    regAfter 0x2F76FF00 (start [(6#4, 0x12345678#32)] []) 7#4 = some (0x12345600#32, 0x000101#24) := by decide
theorem test_ior_reg :
    regAfter 0x3E760008 (start [(6#4, 0xF0F0F0F0#32), (8#4, 0x0F0F0000#32)] []) 7#4 = some (0xFFFFF0F0#32, 0x000101#24) :=
    by decide
theorem test_ior_imm :
    regAfter 0x3F768000 (start [] []) 7#4 = some (0xFFFF8000#32, 0x000101#24) := by decide
theorem test_xor_reg :
    regAfter 0x4E660006 (start [(6#4, 0xCAFEF00D#32)] []) 6#4 = some (0x00000000#32, 0x000101#24) := by decide
theorem test_xor_imm :
    regAfter 0x4F76FFFF (start [(6#4, 0x12345678#32)] []) 7#4 = some (0xEDCBA987#32, 0x000101#24) := by decide
theorem test_stu_reg :
    regAfter 0x5E760008 (start [(6#4, 0xAAAA1111#32), (8#4, 0xBBBB2222#32)] []) 7#4 = some (0x22221111#32, 0x000101#24) :=
    by decide
theorem test_stu_imm :
    regAfter 0x5FEEDEAD (start [(14#4, 0xFFF9BEEF#32)] []) 14#4 = some (0xDEADBEEF#32, 0x000101#24) := by decide
theorem test_mul_reg :
    regAfter 0x6E760008 (start [(6#4, 0x12345678#32), (8#4, 0x9ABCDEF0#32)] []) 7#4 = some (0x242D2080#32, 0x000101#24) :=
    by decide
theorem test_mul_imm :
    regAfter 0x6F760003 (start [(6#4, 0xFFFFFFFE#32)] []) 7#4 = some (0xFFFFFFFA#32, 0x000101#24) := by decide
theorem test_div_reg_negative :
    regAfter 0x7E760008 (start [(6#4, 0xFFFFFFFF#32), (8#4, 0x00000002#32), (7#4, 0x00000077#32)] []) 7#4 = some (0x00000000#32, 0x000101#24) :=
    by decide
theorem test_div_reg_by_most_negative :
    regAfter 0x7E760008 (start [(6#4, 0x7FFFFFFF#32), (8#4, 0x80000000#32), (7#4, 0x00000077#32)] []) 7#4 = some (0x00000000#32, 0x000101#24) :=
    by decide
theorem test_div_imm_by_zero :
    regAfter 0x7F760000 (start [(6#4, 0x00000002#32)] []) 7#4 = some (0x00000002#32, 0x000101#24) := by decide
theorem test_div_imm_by_minus_one :
    regAfter 0x7F76FFFF (start [(6#4, 0x80000000#32)] []) 7#4 = some (0x80000000#32, 0x000101#24) := by decide
theorem test_sub_reg :
    regAfter 0x8E860009 (start [(9#4, 0x00000064#32), (6#4, 0x00000005#32)] []) 8#4 = some (0x0000005F#32, 0x000101#24) :=
    by decide
theorem test_sub_imm :
    regAfter 0x8F760002 (start [(6#4, 0x00000005#32)] []) 7#4 = some (0xFFFFFFFD#32, 0x000101#24) := by decide
theorem test_add_reg :
    regAfter 0x9E760008 (start [(6#4, 0x80000000#32), (8#4, 0x80000000#32), (7#4, 0x00000077#32)] []) 7#4 = some (0x00000000#32, 0x000101#24) :=
    by decide
theorem test_add_imm :
    regAfter 0x9F768000 (start [(6#4, 0x00010000#32)] []) 7#4 = some (0x00008000#32, 0x000101#24) := by decide
theorem test_mld_reg :
    regAfter 0xAE760008 (start [(6#4, 0x00800000#32), (8#4, 0x00800001#32)] [(0x000001, 0x55556666#32)]) 7#4 = some (0x55556666#32, 0x000101#24) :=
    by decide
theorem test_mld_imm_base_is_destination :
    regAfter 0xAF660000 (start [(6#4, 0xAB000020#32)] [(0x000020, 0x77778888#32)]) 6#4 = some (0x77778888#32, 0x000101#24) :=
    by decide
theorem test_mld_imm_wraps :
    regAfter 0xAF760001 (start [(6#4, 0xFFFFFFFF#32)] [(0x000000, 0x33334444#32)]) 7#4 = some (0x33334444#32, 0x000101#24) :=
    by decide
theorem test_stl_reg :
    regAfter 0xCE700006 (start [(6#4, 0xDEADBEEF#32)] []) 7#4 = some (0xDEADBEEF#32, 0x000101#24) := by decide
theorem test_stl_imm :
    regAfter 0xCFE80000 (start [] []) 14#4 = some (0xFFF80000#32, 0x000101#24) := by decide
theorem test_lnk_reg :
    regAfter 0xEE100001 ((start [(1#4, 0x7FFFFFFF#32)] []).setPc 0x000010#24) 1#4 = some (0x8000000F#32, 0x000011#24) :=
    by decide
theorem test_lnk_imm_negative :
    regAfter 0xEF1FFFEF ((start [] []).setPc 0x000010#24) 1#4 = some (0xFFFFFFFF#32, 0x000011#24) := by decide
theorem test_lnk_imm_sign_extends_pc :
    regAfter 0xEF100002 ((start [] []).setPc 0x800000#24) 1#4 = some (0xFF800002#32, 0x800001#24) := by decide
theorem test_mst_reg :
    memAfter 0xBE760008 (start [(6#4, 0x7FFFFFFF#32), (8#4, 0x7FFFFFFF#32), (7#4, 0xA5A5A5A5#32)] []) = some ([(0xFFFFFE, 0xA5A5A5A5#32)], 0x000101#24) :=
    by decide
theorem test_mst_imm :
    memAfter 0xBF767FFF (start [(6#4, 0x00FF8001#32), (7#4, 0x00000001#32)] []) = some ([(0x000000, 0x00000001#32)], 0x000101#24) :=
    by decide
theorem test_cmp_reg :
    crAfter 0xDE600007 (start [(6#4, 0x80000000#32), (7#4, 0x7FFFFFFF#32)] []) = some (0b100#3, 0x000101#24) := by decide
theorem test_cmp_reg_greater :
    crAfter 0xDE600007 (start [(6#4, 0x00000001#32), (7#4, 0xFFFFFFFF#32)] []) = some (0b001#3, 0x000101#24) := by decide
theorem test_cmp_imm_equal :
    crAfter 0xDF6FFFFF (start [(6#4, 0xFFFFFFFF#32)] []) = some (0b010#3, 0x000101#24) := by decide
theorem test_cmp_imm_greater :
    crAfter 0xDF680000 (start [] []) = some (0b001#3, 0x000101#24) := by decide
theorem test_jmp_reg : pcAfter 0xFE000001 (start [(1#4, 0xFF123456#32)] []) = some 0x123456#24 := by decide
theorem test_jmp_imm : pcAfter 0xFF800000 (start [] []) = some 0x800000#24 := by decide

/-! ### Skipped instructions, `pc`, and the end (95_test_vectors.md 2.1 to 2.5, E5) -/

theorem test_query_table :
    (List.map (fun q => [0b100#3, 0b010#3, 0b001#3, 0b111#3].map (queryPasses q))
      [0b000#3, 0b001#3, 0b010#3, 0b011#3, 0b100#3, 0b101#3, 0b110#3, 0b111#3]) =
    [[false, false, false, false], [false, false, true, true], [false, true, false, true], [false, true, true, true],
     [true, false, false, true], [true, false, true, true], [true, true, false, true], [true, true, true, true]] :=
    by decide
theorem test_skipped_mst : memAfter 0xB9760000 ((start [(6#4, 0x10#32), (7#4, 0xCAFEF00D#32)] []).setCr 0b001#3)
    = some ([], 0x000101#24) := by decide
theorem test_skipped_cmp : crAfter 0xD5600005 ((start [(6#4, 5#32)] []).setCr 0b100#3) = some (0b100#3, 0x000101#24) :=
    by decide
theorem test_skipped_jmp : pcAfter 0xF3000008 (((start [] []).setCr 0b010#3).setPc 0x000005#24) = some 0x000006#24 :=
    by decide
theorem test_pc_wraps : pcAfter 0xF1000000 ((start [] []).setPc 0xFFFFFF#24) = some 0x000000#24 := by decide
theorem test_terminal : isTerminal ((start [] []).withFetchWord 32 0xFF000100) = true ∧
    isTerminal ((start [] []).withFetchWord 32 0xF1000100) = false := by decide
theorem test_add_signals_overflow : aluSignal (.addImm 0b111#3 7#4 6#4 1#16) (start [(6#4, 0x7FFFFFFF#32)] []) = true ∧
    aluSignal (.divImm 0b111#3 7#4 6#4 0#16) (start [(6#4, 2#32)] []) = false := by decide
theorem test_store_of_unlisted_value_lists_nothing : Memory.write [(0x10, 5#32)] 0x10#24 Config.unlistedWord = [] :=
    by decide

/-! ### The assembler (95_test_vectors.md section 1: E1, E3, E4, E6, E7; E8 and E9 in part) -/

/-- The words of a text at a base address. -/
def words (base : Addr) (text : String) : Except AsmError (List Word) := assemble base text.toList

theorem test_asm_sub_forms : words 0#24 "SUB $t1 2 $t0   # T1\nSUB $t2 $t3 $t0\nADD $t3 $t1 -1"
    = .ok [0x8F760002#32, 0x8E860009#32, 0x9F97FFFF#32] := by decide +kernel
theorem test_asm_set : words 0#24 "STL $t8 0x9BEEF\nSTU $t8 $t8 0xDEAD" = .ok [0xCFE9BEEF#32, 0x5FEEDEAD#32] :=
    by decide +kernel
theorem test_asm_query : words 0#24 "CMP $t0 $t1\nMOV ?GE $t0 -1\nMOV ?LT $t0 0"
    = .ok [0xDE600007#32, 0xC76FFFFF#32, 0xC9600000#32] := by decide +kernel
theorem test_asm_label_absolute : words 1#24 "JMP @GOTO\nMOV $t0 0\nGOTO: MOV $t1 0"
    = .ok [0xFF000003#32, 0xCF600000#32, 0xCF700000#32] := by decide +kernel
theorem test_asm_label_relative : words 1#24 "LNK $ra @GOTO\nMOV $t0 0\nGOTO: MOV $t1 0"
    = .ok [0xEF100002#32, 0xCF600000#32, 0xCF700000#32] := by decide +kernel
theorem test_asm_memory : words 0#24 "MLD $t0 $t8($a0)\nMST $a0 1($sp)" = .ok [0xAE62000E#32, 0xBF2F0001#32] :=
    by decide +kernel
theorem test_asm_nop_jal : words 0#24 "NOP\nJAL ?LT $t0" = .ok [0x01000000#32, 0xE9100002#32, 0xF8000006#32] :=
    by decide +kernel
theorem test_asm_end : words 0x0D#24 "END ?EQ" = .ok [0xF500000D#32] := by decide +kernel
theorem test_asm_rtn : words 0#24 "RTN ?GE $a0\nNIL $t3" = .ok [0xC6000002#32, 0xF6000001#32, 0xCF900000#32] :=
    by decide +kernel
theorem test_asm_slices : words 0#24 "SLI $t0 0x12345678\nSUI $t1 $t0 0x12345678\nSTI $a0 -2"
    = .ok [0xCF605678#32, 0x5F761234#32, 0xCF20FFFE#32, 0x5F22FFFF#32] := by decide +kernel
theorem test_asm_stack : words 0#24 "PSH $t2\nTOP $t1\nPOP $t4"
    = .ok [0x9FFFFFFF#32, 0xBF8F0000#32, 0xAF7F0000#32, 0xAFAF0000#32, 0x9FFF0001#32] := by decide +kernel
theorem test_asm_mov_numbers : words 0#24 "mov ?4 $06, $15" = .ok [0xC860000F#32] := by decide +kernel
/-- R182, R183 and R178: a label in a 3-ARG instruction, a value too wide, a label defined nowhere. -/
theorem test_asm_rejects : words 0#24 "A: ADD $t0 $t0 @A" = .error .labelInThreeArg ∧
    words 0#24 "ADD $t0 $t0 0x10000" = .error .tooWide ∧ words 0#24 "JMP @NOWHERE" = .error .undefinedLabel :=
    by decide +kernel
/-- The word file of 20_memory.md R48, in either byte order. -/
theorem test_word_file : wordsOfFile .bigEndian (bytesOfWord .bigEndian 0xCFE9BEEF#32) = some [0xCFE9BEEF#32] ∧
    wordsOfFile .littleEndian [0xEF#8, 0xBE#8, 0xE9#8, 0xCF#8] = some [0xCFE9BEEF#32] := by decide

/-! ### Witnesses -/

theorem witness_EncodeOfDecodeClearsUnusedBits : canonicalWord 0x9FFFFFFE#32 = true := by decide
/-- The opcodes at the ends of the three ranges: 0 and 11, 12 and 14, 15. -/
theorem witness_DecodeIgnoresUnusedBits :
    ((0x0E760008#32).getLsbD 24 = false ∧ ((0x0E760008#32).extractLsb' 28 4).toNat ≤ 11) ∧
    ((0xBE760008#32).getLsbD 24 = false ∧ ((0xBE760008#32).extractLsb' 28 4).toNat = 11) ∧
    ((0xCE700006#32).getLsbD 24 = false ∧ ((0xCE700006#32).extractLsb' 28 4).toNat = 12) ∧
    ((0xEE100006#32).getLsbD 24 = false ∧ ((0xEE100006#32).extractLsb' 28 4).toNat = 14) ∧
    (0xFE000001#32).getLsbD 24 = false ∧ ((0xFE000001#32).extractLsb' 28 4).toNat = 15 := by decide

/-- The start state with the word `w` at its `pc`. -/
def startOn (w : Nat) (regs : List (RegNum × Word)) : State := (start regs []).withFetchWord 32 w

theorem witness_StepRunsTheDecodedInstruction :
    decode (Memory.read (startOn 0xBF760003 []).imem (startOn 0xBF760003 []).pc) = .mstImm 0b111#3 7#4 6#4 3#16 := by decide
theorem witness_SkippedInstructionOnlyAdvances :
    ¬ Executes (Instr.jmpImm 0b001#3 8#24).query ((start [] []).setCr 0b010#3) := by decide
/-- One for each side of the or, at the last address. -/
theorem witness_ProgramCounterAdvancesByOne :
    isJmp (.stlImm 0b111#3 14#4 0#20) = false ∧
    ¬ Executes (Instr.jmpImm 0b000#3 0#24).query ((start [] []).setPc 0xFFFFFF#24) := by decide
theorem witness_QueriesMeanTheirRelations : Executes 0b110#3 ((start [] []).setCr 0b100#3) := by decide
theorem witness_ComparisonRegisterStartsAtOk : Executes 0b111#3 (start [] []) ∧ Executes 0b001#3 ((start [] []).setCr 0b001#3) := by decide
/-- An executed CMP, a skipped CMP, and another instruction. -/
theorem witness_OnlyExecutedCmpWritesCr :
    (isCmp (.cmpImm 0b111#3 6#4 5#20) = true ∧ Executes 0b111#3 (start [] [])) ∧
    ¬ (isCmp (.cmpImm 0b000#3 6#4 5#20) = true ∧ Executes 0b000#3 (start [] [])) ∧
    ¬ (isCmp (.addImm 0b111#3 6#4 5#4 5#16) = true ∧ Executes 0b111#3 (start [] [])) := by decide
/-- A skipped MST, and an executed instruction that is none. -/
theorem witness_OnlyExecutedMstWritesDataMemory :
    ¬ (isMst (.mstImm 0b000#3 7#4 6#4 0#16) = true ∧ Executes 0b000#3 (start [] [])) ∧
    ¬ (isMst (.mldImm 0b111#3 7#4 6#4 0#16) = true ∧ Executes 0b111#3 (start [] [])) := by decide
theorem witness_InstructionMemoryIsConstant : ∃ t, Host.Core.run core 1 (startOn 0xCFE00000 []) = .next t := ⟨_, rfl⟩
/-- A register that is not the destination, and MST, which has none. -/
theorem witness_OnlyTheDestinationRegisterChanges :
    destination (.mldImm 0b111#3 7#4 15#4 0#16) ≠ some 15#4 ∧ destination (.mstImm 0b111#3 7#4 15#4 0#16) ≠ some 7#4 :=
    by decide
theorem witness_InstructionMemoryIsNotReadAsData : ∃ t, exec (.jmpImm 0b111#3 3#24) (start [] []) = .next t := ⟨_, rfl⟩
theorem witness_OnlyMldReadsDataMemory :
    ¬ (isMld (.mstImm 0b111#3 7#4 6#4 0#16) = true ∧ Executes (Instr.mstImm 0b111#3 7#4 6#4 0#16).query (start [] [])) ∧
    viewAfter State.dmem 0xBF760000 (start [(7#4, 9#32)] []) = some [(0, 9#32)] := by decide

/-! The results: a query that shares a bit with `$CR` without being equal to it. -/

theorem witness_ShlResult : Executes 0b011#3 ((start [(6#4, 5#32)] []).setCr 0b010#3) := by decide
theorem witness_ShrResult : Executes 0b011#3 ((start [(6#4, 5#32)] []).setCr 0b010#3) := by decide
theorem witness_AndResult : Executes 0b011#3 ((start [(6#4, 5#32)] []).setCr 0b010#3) := by decide
theorem witness_IorResult : Executes 0b011#3 ((start [(6#4, 5#32)] []).setCr 0b010#3) := by decide
theorem witness_XorResult : Executes 0b011#3 ((start [(6#4, 5#32)] []).setCr 0b010#3) := by decide
theorem witness_StuResult : Executes 0b011#3 ((start [(6#4, 5#32)] []).setCr 0b010#3) := by decide
theorem witness_MulResult : Executes 0b011#3 ((start [(6#4, 5#32)] []).setCr 0b010#3) := by decide
theorem witness_SubResult : Executes 0b011#3 ((start [(6#4, 5#32)] []).setCr 0b010#3) := by decide
theorem witness_AddResult : Executes 0b011#3 ((start [(6#4, 5#32)] []).setCr 0b010#3) := by decide
theorem witness_MldResult : Executes 0b011#3 ((start [(6#4, 5#32)] []).setCr 0b010#3) := by decide
theorem witness_MstResult : Executes 0b011#3 ((start [(6#4, 5#32)] []).setCr 0b010#3) := by decide
theorem witness_StlResult : Executes 0b011#3 ((start [(6#4, 5#32)] []).setCr 0b010#3) := by decide
theorem witness_LnkResult : Executes 0b011#3 (((start [(6#4, 5#32)] []).setCr 0b010#3).setPc 0xFFFFFE#24) ∧
    (0xFFFFFE#24).toNat + 1 < 2 ^ 24 := by decide
/-- Executed, and skipped at the last address whose successor does not wrap. -/
theorem witness_JmpResult : Executes 0b011#3 ((start [(6#4, 5#32)] []).setCr 0b010#3) ∧
    ¬ Executes 0b011#3 ((start [] []).setCr 0b100#3) ∧ (0xFFFFFE#24).toNat + 1 < 2 ^ 24 := by decide
/-- Every clause of DIV, at its edges: zero divisor, -2^31 by -1, and the neighbours of both. -/
theorem witness_DivResult :
    Executes 0b011#3 ((start [] []).setCr 0b010#3) ∧
    (0#32).toInt = 0 ∧ (1#32).toInt ≠ 0 ∧
    ((0x80000000#32).toInt = -2 ^ 31 ∧ (0xFFFFFFFF#32).toInt = -1) ∧
    ¬ ((0x80000001#32).toInt = -2 ^ 31 ∧ (0xFFFFFFFF#32).toInt = -1) ∧
    ¬ ((0x80000000#32).toInt = -2 ^ 31 ∧ (0xFFFFFFFE#32).toInt = -1) := by decide
/-- The clauses of CMP: skipped, and executed at the ends of the register and of the immediate range. -/
theorem witness_CmpResult :
    Executes 0b011#3 ((start [] []).setCr 0b010#3) ∧ ¬ Executes 0b011#3 ((start [] []).setCr 0b100#3) ∧
    (0x80000000#32).toInt < (0x7FFFFFFF#32).toInt ∧ (0x80000000#32).toInt = (0x80000000#32).toInt ∧
    (0x7FFFFFFF#32).toInt > (0x80000000#32).toInt ∧
    (0x80000000#32).toInt < (0x80000#20).toInt ∧ (0xFFF80000#32).toInt = (0x80000#20).toInt ∧
    (0x7FFFFFFF#32).toInt > (0x7FFFF#20).toInt := by decide
/-- The most negative dividend by 1 and by -2, and the combinations of signs of 7 and 2. -/
theorem witness_DivisionRoundsTowardZero :
    ((1#32).toInt ≠ 0 ∧ ¬ ((0x80000000#32).toInt = -2 ^ 31 ∧ (1#32).toInt = -1)) ∧
    ((0xFFFFFFFE#32).toInt ≠ 0 ∧ ¬ ((0x80000000#32).toInt = -2 ^ 31 ∧ (0xFFFFFFFE#32).toInt = -1)) ∧
    ((2#32).toInt ≠ 0 ∧ ¬ ((0xFFFFFFF9#32).toInt = -2 ^ 31 ∧ (2#32).toInt = -1)) ∧
    ((0xFFFFFFFE#32).toInt ≠ 0 ∧ ¬ ((7#32).toInt = -2 ^ 31 ∧ (0xFFFFFFFE#32).toInt = -1)) := by decide
/-- Both branches: the load from the address stored to, and from another. -/
theorem witness_LoadSeesTheLatestStore :
    Executes 0b111#3 (start [(6#4, 0x10#32), (7#4, 0xCAFEF00D#32)] []) ∧
    (∃ t, exec (.mstReg 0b111#3 7#4 6#4 8#4) (start [(6#4, 0x10#32), (7#4, 0xCAFEF00D#32)] []) = .next t) ∧
    effectiveAddress 0x10#32 0#32 = effectiveAddress 0x01000010#32 0#32 ∧
    effectiveAddress 0x10#32 0#32 ≠ effectiveAddress 0x11#32 0#32 := ⟨by decide, ⟨_, rfl⟩, by decide, by decide⟩

/-- Each premise of the invariant: a value a comparison leaves, `?OK`, an executed CMP at `pc`, and a step that ends in `?OK`. -/
theorem witness_CrTakesOnlyReachableValues :
    CrCompared ((start [] []).setCr 0b100#3) ∧ CrLegal (start [] []) ∧
    (isCmp (decode (startOn 0xDF600001 []).fetchWord) = true ∧
      Executes (decode (startOn 0xDF600001 []).fetchWord).query (startOn 0xDF600001 [])) ∧
    crAfter 0xCFE00000 (start [] []) = some (0b111#3, 0x000101#24) :=
  ⟨.inl rfl, .inl rfl, by decide, by decide⟩
/-- A memory with its first, an inner and its last word listed; and lists that are not in the form. -/
theorem witness_StepKeepsMemoriesCanonical :
    (start [] [(0, 1#32), (0x10, 2#32), (0xFFFFFF, 3#32)]).memWf = true ∧ Memory.wf [(1, 1#32), (1, 2#32)] = false ∧
    Memory.wf [(1, 0#32)] = false ∧ Memory.wf [(0x1000000, 1#32)] = false := by decide
theorem witness_EveryContentsIsOneMemory :
    Memory.wf [] = true ∧ ∀ a, Memory.read [] a = Config.unlistedWord := ⟨rfl, fun _ => rfl⟩
theorem witness_TerminalStateIsForEver : isTerminal (startOn 0xFF000100 []) = true := by decide

/-! The pseudo-instructions: their words in instruction memory at `pc`, up to the wrap at its end. -/

/-- The start state with words placed from `pc` upward. -/
def placed (is : List Instr) (pc : Addr) : State :=
  State.launch pc (Vector.replicate 16 0#32) (Memory.writeFrom [] pc (is.map encode)) []

/-- Words placed by `placed` stand where `Placed` asks for them. -/
theorem placed_one (i : Instr) (pc : Addr) : Placed [i] (placed [i] pc) := by
  intro k h
  obtain rfl : k = 0 := by simpa using h
  simp [placed, State.launch, Memory.writeFrom]

theorem placed_two (i j : Instr) (pc : Addr) : Placed [i, j] (placed [i, j] pc) := by
  intro k h
  obtain rfl | rfl : k = 0 ∨ k = 1 := by simp at h; omega
  · simp [placed, State.launch, Memory.writeFrom, Memory.read_write_of_ne]
  · simp [placed, State.launch, Memory.writeFrom]

theorem witness_NopOnlyAdvances : Placed expandNop (placed expandNop 0xFFFFFF#24) := placed_one _ _
/-- END with a query that passes, and with one that fails. -/
theorem witness_EndLoopsForEver :
    (Placed (expandEnd 0b111#3 4#24) (placed (expandEnd 0b111#3 4#24) 4#24) ∧
      Executes 0b111#3 (placed (expandEnd 0b111#3 4#24) 4#24)) ∧
    Placed (expandEnd 0b000#3 4#24) (placed (expandEnd 0b000#3 4#24) 4#24) ∧
      ¬ Executes 0b000#3 (placed (expandEnd 0b000#3 4#24) 4#24) :=
  ⟨⟨placed_one _ _, by decide⟩, placed_one _ _, by decide⟩
/-- JAL to an address, and through `$ra` itself. -/
theorem witness_JalLinksAndJumps (target : RegImm 24) :
    Executes 0b100#3 (placed (expandJal 0b100#3 target) 0xFFFFFF#24) ∧
    Placed (expandJal 0b100#3 target) (placed (expandJal 0b100#3 target) 0xFFFFFF#24) :=
    ⟨by simp [Executes, placed, State.launch], placed_two _ _ _⟩
theorem witness_RtnSetsValueAndReturns :
    Executes 0b111#3 (placed (expandRtn 0b111#3 (.imm 5#20)) 0#24) ∧
    Placed (expandRtn 0b111#3 (.imm 5#20)) (placed (expandRtn 0b111#3 (.imm 5#20)) 0#24) := ⟨by decide, placed_two _ _ _⟩
theorem witness_StiLoadsAnyConstant :
    Executes 0b111#3 (placed (expandSti 0b111#3 14#4 0xDEADBEEF#32) 0#24) ∧
    Placed (expandSti 0b111#3 14#4 0xDEADBEEF#32) (placed (expandSti 0b111#3 14#4 0xDEADBEEF#32) 0#24) :=
  ⟨by decide, placed_two _ _ _⟩
/-- PSH of another register, and of `$sp` itself. -/
theorem witness_PshPushes (rd : RegNum) :
    Executes 0b111#3 (placed (expandPsh 0b111#3 rd) 0#24) ∧
    Placed (expandPsh 0b111#3 rd) (placed (expandPsh 0b111#3 rd) 0#24) :=
    ⟨by simp [Executes, placed, State.launch], placed_two _ _ _⟩
/-- POP to another register, and to `$sp` itself. -/
theorem witness_PopPops (rd : RegNum) :
    Executes 0b111#3 (placed (expandPop 0b111#3 rd) 0#24) ∧
    Placed (expandPop 0b111#3 rd) (placed (expandPop 0b111#3 rd) 0#24) :=
    ⟨by simp [Executes, placed, State.launch], placed_two _ _ _⟩
theorem witness_OneWordPseudoResults :
    Placed (expandNil 0b111#3 9#4) (placed (expandNil 0b111#3 9#4) 0#24) ∧
    Placed (expandMov 0b111#3 6#4 (.imm 2#20)) (placed (expandMov 0b111#3 6#4 (.imm 2#20)) 0#24) ∧
    Placed (expandSli 0b111#3 6#4 0x12345678#32) (placed (expandSli 0b111#3 6#4 0x12345678#32) 0#24) ∧
    Placed (expandSui 0b111#3 7#4 6#4 0x12345678#32) (placed (expandSui 0b111#3 7#4 6#4 0x12345678#32) 0#24) ∧
    Placed (expandTop 0b111#3 7#4) (placed (expandTop 0b111#3 7#4) 0#24) ∧
    ∀ is, Executes 0b111#3 (placed is 0#24) :=
  ⟨placed_one _ _, placed_one _ _, placed_one _ _, placed_one _ _, placed_one _ _, fun _ => by simp [Executes, placed, State.launch]⟩

/-! The assembler. -/

/-- The two ends of a slot and their neighbours, and the value from which the sign extension reads back less 2^N. -/
theorem witness_SlotAcceptsAndReadsBack :
    (∃ f, slotField 16 (-32768) = .ok f) ∧ (∃ f, slotField 16 65535 = .ok f ∧ f.toInt = -1) ∧
    (∃ f, slotField 16 32768 = .ok f ∧ f.toInt = -32768) ∧ (∃ f, slotField 16 32767 = .ok f ∧ f.toInt = 32767) ∧
    slotField 16 (-32769) = .error .tooWide ∧ slotField 16 65536 = .error .tooWide ∧
    (∃ f, slotField 1 (-1) = .ok f ∧ f.toInt = -1) :=
  ⟨⟨_, rfl⟩, ⟨_, rfl, by decide⟩, ⟨_, rfl, by decide⟩, ⟨_, rfl, by decide⟩, rfl, rfl, ⟨_, rfl, by decide⟩⟩
theorem witness_LabelInThreeArgIsRejected : labelAddress [(['a'], 0xFFFFFF)] ['a'] = .ok 0xFFFFFF := rfl
/-- The offsets 2^19, -2^19, and the one below, which is rejected. -/
theorem witness_LabelsAbsoluteInOneArgRelativeInTwoArg :
    (labelAddress [(['a'], 0)] ['a'] = .ok 0 ∧ (0x80000 : Nat) < 2 ^ 24 ∧ -2 ^ 19 ≤ ((0 : Nat) : Int) - (0x80000 : Nat)) ∧
    ((0x80001 : Nat) < 2 ^ 24 ∧ ¬ -2 ^ 19 ≤ ((0 : Nat) : Int) - (0x80001 : Nat)) ∧
    (labelAddress [(['a'], 0xFFFFFF)] ['a'] = .ok 0xFFFFFF ∧ ((0xFFFFFF : Nat) : Int) - (0xF00000 : Nat) = 2 ^ 20 - 1) :=
    by decide
theorem witness_AcceptedStatementHasItsWordCount :
    expandStatement [] 4 ⟨.jal, none, [.num 0x123456]⟩ = .ok [.lnkImm 0b111#3 1#4 2#20, .jmpImm 0b111#3 0x123456#24] :=
    by decide
theorem witness_LaunchedProgramStandsAtItsBase :
    assemble 4#24 "JAL 0x123456".toList = .ok [0xEF100002#32, 0xFF123456#32] := by decide +kernel

end Sys2Proof.Tests
end

