-- ==== Sys2Proof/Proofs/MemoryContents.lean ====
section
/-! PROOFS. The canonical form holds each contents of a memory once: a canonical memory is determined by what it reads as, and
every contents is read from one (00_scope.md R7, 20_memory.md R40). -/

namespace Sys2Proof.Machine

/-! ### Uniqueness: a canonical memory is determined by its words -/

@[simp] theorem Memory.lookup_cons_self (k : Nat) (v : Word) (rest : Memory) : Memory.lookup ((k, v) :: rest) k = v := by
  simp [Memory.lookup]

theorem Memory.lookup_cons_of_ne {k a : Nat} (h : k ≠ a) (v : Word) (rest : Memory) :
    Memory.lookup ((k, v) :: rest) a = Memory.lookup rest a := by
  simp [Memory.lookup, h]

/-- No address below the first entry's is listed. -/
theorem Memory.head_le_of_lookup_ne {lo k a : Nat} {v : Word} {rest : Memory}
    (hm : Memory.wfFrom lo ((k, v) :: rest) = true)
    (ha : Memory.lookup ((k, v) :: rest) a ≠ Config.unlistedWord) : k ≤ a := by
  obtain ⟨-, hk, hv, hrest⟩ := (Memory.wfFrom_cons ..).1 hm
  have hm' : Memory.wfFrom k ((k, v) :: rest) = true := (Memory.wfFrom_cons ..).2 ⟨le_rfl, hk, hv, hrest⟩
  by_contra hlt
  exact ha (Memory.lookup_below hm' (by omega))

/-- The words of the tail are those of the whole list, but for the first entry's address, which the tail does not list. -/
theorem Memory.lookup_tail {lo k : Nat} {v : Word} {rest : Memory} (hm : Memory.wfFrom lo ((k, v) :: rest) = true) (a : Nat) :
    Memory.lookup rest a = if k = a then Config.unlistedWord else Memory.lookup ((k, v) :: rest) a := by
  obtain ⟨-, -, -, hrest⟩ := (Memory.wfFrom_cons ..).1 hm
  split
  next h => exact Memory.lookup_below hrest (by omega)
  next h => exact (Memory.lookup_cons_of_ne h v rest).symm

/-- Two lists in canonical form that agree on every 24-bit address are the same list: their first entries are each at the least
listed address, and without them the tails agree. -/
theorem Memory.eq_of_lookup_eq {lo lo' : Nat} {m m' : Memory} (hm : Memory.wfFrom lo m = true)
    (hm' : Memory.wfFrom lo' m' = true) (h : ∀ a < 2 ^ 24, Memory.lookup m a = Memory.lookup m' a) : m = m' := by
  induction m generalizing lo lo' m' with
  | nil =>
    cases m' with
    | nil => rfl
    | cons c' rest' =>
      obtain ⟨k', v'⟩ := c'
      obtain ⟨-, hk', hv', -⟩ := (Memory.wfFrom_cons ..).1 hm'
      exact absurd ((h k' hk').trans (Memory.lookup_cons_self ..)).symm hv'
  | cons c rest ih =>
    obtain ⟨k, v⟩ := c
    obtain ⟨-, hk, hv, hrest⟩ := (Memory.wfFrom_cons ..).1 hm
    have hvk := (Memory.lookup_cons_self k v rest).symm.trans (h k hk)
    cases m' with
    | nil => exact absurd hvk hv
    | cons c' rest' =>
      obtain ⟨k', v'⟩ := c'
      obtain ⟨-, hk', hv', hrest'⟩ := (Memory.wfFrom_cons ..).1 hm'
      have hvk' := (h k' hk').trans (Memory.lookup_cons_self k' v' rest')
      have hle : k ≤ k' := Memory.head_le_of_lookup_ne hm (hvk' ▸ hv')
      have hge : k' ≤ k := Memory.head_le_of_lookup_ne hm' (hvk ▸ hv)
      obtain rfl : k = k' := le_antisymm hle hge
      obtain rfl : v = v' := by simpa using hvk
      have htail : rest = rest' := ih hrest hrest' fun a ha => by
        rw [Memory.lookup_tail hm, Memory.lookup_tail hm', h a ha]
      rw [htail]

/-- Extensionality of canonical memories. -/
theorem Memory.eq_of_read_eq {m m' : Memory} (hm : Memory.wf m = true) (hm' : Memory.wf m' = true)
    (h : ∀ a, Memory.read m a = Memory.read m' a) : m = m' :=
  Memory.eq_of_lookup_eq hm hm' fun a ha => by
    have hread := h (BitVec.ofNat 24 a)
    rwa [Memory.read, Memory.read, BitVec.toNat_ofNat, Nat.mod_eq_of_lt ha] at hread

/-! ### Existence: write the contents word by word -/

/-- Writing the words of `f` at the addresses of `S` into the empty memory. -/
theorem Memory.exists_wf_read_eq_on (f : Addr → Word) (S : Finset Addr) :
    ∃ m, Memory.wf m = true ∧ ∀ a, Memory.read m a = if a ∈ S then f a else Config.unlistedWord := by
  induction S using Finset.induction_on with
  | empty => exact ⟨[], Memory.wf_nil, fun a => by simp⟩
  | insert b S hb ih =>
    obtain ⟨m, hm, hread⟩ := ih
    refine ⟨Memory.write m b (f b), Memory.wf_write hm b (f b), fun a => ?_⟩
    rw [Memory.read_write, hread]
    by_cases hab : a = b <;> simp [hab]

theorem Memory.exists_wf_read_eq (f : Addr → Word) : ∃ m, Memory.wf m = true ∧ ∀ a, Memory.read m a = f a := by
  obtain ⟨m, hm, hread⟩ := Memory.exists_wf_read_eq_on f (Set.toFinite Set.univ).toFinset
  exact ⟨m, hm, fun a => by simpa using hread a⟩

end Sys2Proof.Machine

namespace Sys2Proof.Proofs

open Sys2Proof.Machine

/-- Settles O41: the memory with every word of `f` written, unique by extensionality. -/
theorem everyContentsIsOneMemory : Obligations.EveryContentsIsOneMemory := by
  unfold Obligations.EveryContentsIsOneMemory
  intro f
  obtain ⟨m, hm, hread⟩ := Memory.exists_wf_read_eq f
  exact ⟨m, hm, hread, fun m' hm' hread' => Memory.eq_of_read_eq hm' hm fun a => (hread' a).trans (hread a).symm⟩

end Sys2Proof.Proofs
end

