-- ==== Sys2Proof/Proofs/InstructionEffect.lean ====
section
/-! PROOFS. Everything one instruction can do to the state, said once for all 32 rows: an executed instruction writes its
destination, a word of data memory, `$CR` or `pc`, and a skipped one only advances (40_execution_cycle.md R90 to R97). -/

namespace Sys2Proof.Machine

open Sys2Proof.Claims

/-- The states an executed instruction can leave, by the one thing it writes: its destination, a word of data memory for MST,
the result of a comparison for CMP, or `pc` alone for JMP. -/
inductive Effect (i : Instr) (s : State) : State → Prop
  | writeReg {rd : RegNum} (v : Word) (h : destination i = some rd) : Effect i s (s.writeReg rd v).advance
  | store (a : Addr) (v : Word) (h : isMst i = true) : Effect i s (s.store a v).advance
  | setCr (a b : Word) (h : isCmp i = true) : Effect i s (s.setCr (compareSigned a b)).advance
  | setPc (target : Addr) (h : isJmp i = true) : Effect i s (s.setPc target)

/-- Every arm of `exec` is the shared frame around an effect of its instruction. -/
theorem exec_eq_conditionally_effect (i : Instr) (s : State) :
    ∃ done, Effect i s done ∧ exec i s = conditionally i.query s done := by
  cases i with
  | mstReg | mstImm => exact ⟨_, .store _ _ rfl, rfl⟩
  | cmpReg | cmpImm => exact ⟨_, .setCr _ _ rfl, rfl⟩
  | jmpReg | jmpImm => exact ⟨_, .setPc _ rfl, rfl⟩
  | _ => exact ⟨_, .writeReg _ rfl, rfl⟩

theorem exec_of_executes {i : Instr} {s : State} (h : Executes i.query s) : ∃ t, exec i s = .next t ∧ Effect i s t := by
  obtain ⟨done, heff, hexec⟩ := exec_eq_conditionally_effect i s
  exact ⟨done, hexec.trans (conditionally_of_passes h done), heff⟩

theorem exec_of_not_executes {i : Instr} {s : State} (h : ¬ Executes i.query s) : exec i s = .next s.advance := by
  obtain ⟨done, -, hexec⟩ := exec_eq_conditionally_effect i s
  exact hexec.trans (conditionally_of_not_passes h done)

end Sys2Proof.Machine
end

