-- ==== Sys2Proof/Proofs/ComparisonRegister.lean ====
section
/-! PROOFS. `$CR` from reset on: which instructions write it, and which values it takes (10_state.md R31, R33). -/

namespace Sys2Proof.Machine

open Sys2Proof.Claims

/-! ### What an executed instruction does to `$CR` -/

/-- CMP is none of the instructions that write a register, data memory or `pc` alone. -/
theorem exclusive_of_isCmp {i : Instr} (h : isCmp i = true) : destination i = none ∧ isMst i = false ∧ isJmp i = false := by
  cases i with
  | cmpReg | cmpImm => exact ⟨rfl, rfl, rfl⟩
  | _ => cases h

theorem compareSigned_compared (a b : Word) :
    compareSigned a b = 0b100#3 ∨ compareSigned a b = 0b010#3 ∨ compareSigned a b = 0b001#3 := by
  unfold compareSigned
  split
  · exact .inl rfl
  · split
    · exact .inr (.inl rfl)
    · exact .inr (.inr rfl)

theorem Effect.crCompared_of_isCmp {i : Instr} {s t : State} (h : Effect i s t) (hcmp : isCmp i = true) : CrCompared t := by
  obtain ⟨hdest, hmst, hjmp⟩ := exclusive_of_isCmp hcmp
  cases h with
  | writeReg v h => simp [hdest] at h
  | store a v h => simp [hmst] at h
  | setCr a b => exact compareSigned_compared a b
  | setPc target h => simp [hjmp] at h

theorem Effect.cr_eq_of_not_isCmp {i : Instr} {s t : State} (h : Effect i s t) (hcmp : ¬ isCmp i = true) : t.cr = s.cr := by
  cases h with
  | setCr a b h => exact absurd h hcmp
  | writeReg | store | setPc => rfl

/-! ### The values of `$CR` -/

theorem cr_ne_ok_of_crCompared {s : State} (h : CrCompared s) : s.cr ≠ 0b111#3 := by
  rcases h with h | h | h <;> simp [h]

theorem crCompared_congr {s t : State} (h : t.cr = s.cr) : CrCompared t ↔ CrCompared s := by
  simp [CrCompared, h]

theorem crLegal_congr {s t : State} (h : t.cr = s.cr) : CrLegal t ↔ CrLegal s := by
  simp [CrLegal, crCompared_congr h, h]

end Sys2Proof.Machine

namespace Sys2Proof.Proofs

open Sys2Proof.Machine Sys2Proof.Claims

/-- Settles O13: an executed instruction by its effect, a skipped one by the advance, which keeps `$CR`. -/
theorem onlyExecutedCmpWritesCr : Obligations.OnlyExecutedCmpWritesCr := by
  unfold Obligations.OnlyExecutedCmpWritesCr
  intro i s
  by_cases hexec : Executes i.query s
  · obtain ⟨t, ht, heff⟩ := exec_of_executes hexec
    exact ⟨t, ht, fun ⟨hcmp, _⟩ => heff.crCompared_of_isCmp hcmp,
      fun hnot => heff.cr_eq_of_not_isCmp fun hcmp => hnot ⟨hcmp, hexec⟩⟩
  · exact ⟨s.advance, exec_of_not_executes hexec, fun ⟨_, h⟩ => absurd h hexec, fun _ => s.advance_cr⟩

/-- Settles O38: a step that executes a CMP leaves the result of a comparison, any other keeps `$CR`, and with it each of the
properties. -/
theorem crTakesOnlyReachableValues : Obligations.CrTakesOnlyReachableValues := by
  unfold Obligations.CrTakesOnlyReachableValues
  refine ⟨rfl, fun s => ?_⟩
  obtain ⟨t, ht, hwritten, hkept⟩ := onlyExecutedCmpWritesCr (decode s.fetchWord) s
  refine ⟨t, ht, ?_⟩
  by_cases hcmp : isCmp (decode s.fetchWord) = true ∧ Executes (decode s.fetchWord).query s
  · have hcr : CrCompared t := hwritten hcmp
    exact ⟨fun _ => .inr hcr, fun _ => hcr, fun _ => hcr, fun hok => absurd hok (cr_ne_ok_of_crCompared hcr)⟩
  · have hcr : t.cr = s.cr := hkept hcmp
    exact ⟨(crLegal_congr hcr).2, (crCompared_congr hcr).2, hwritten, hcr.symm.trans⟩

end Sys2Proof.Proofs
end

