-- ==== Sys2Proof/Proofs/MemoryAccess.lean ====
section
/-! PROOFS. The two memories: which instructions reach data memory, to write it or to read it, that none reaches instruction
memory, and the effective address (20_memory.md R40 to R45, R56). -/

namespace Sys2Proof.Machine

open Sys2Proof.Claims

/-! ### What an executed instruction keeps -/

theorem Effect.load_eq_of_not_isMst {i : Instr} {s t : State} (h : Effect i s t) (hmst : ¬ isMst i = true) (a : Addr) :
    t.load a = s.load a := by
  cases h with
  | store b v h => exact absurd h hmst
  | writeReg | setCr | setPc => rfl

theorem Effect.imem_eq {i : Instr} {s t : State} (h : Effect i s t) : t.imem = s.imem := by
  cases h with
  | writeReg | store | setCr | setPc => rfl

/-! ### Instruction memory along a run -/

theorem imem_eq_of_exec {i : Instr} {s t : State} (h : exec i s = .next t) : t.imem = s.imem := by
  obtain ⟨done, heff, hexec⟩ := exec_eq_conditionally_effect i s
  obtain ⟨-, rfl⟩ | ⟨-, rfl⟩ := conditionally_next.1 (hexec.symm.trans h)
  · exact heff.imem_eq
  · exact s.advance_imem

/-- No step stops the machine (60_exceptions.md R210). -/
theorem exists_step (s : State) : ∃ t, step s = .next t := by
  obtain ⟨_, -, hexec⟩ := exec_eq_conditionally_effect (decode s.fetchWord) s
  exact ⟨_, hexec⟩

/-- What every step keeps, every run keeps. -/
theorem run_keeps {P : State → Prop} (hstep : ∀ s t, step s = .next t → P s → P t) (k : Nat) {s t : State}
    (h : Host.Core.run core k s = .next t) (hs : P s) : P t := by
  induction k generalizing s with
  | zero =>
    obtain rfl : s = t := Host.Outcome.next.inj h
    exact hs
  | succ k ih =>
    obtain ⟨u, hu⟩ := exists_step s
    exact ih ((run_succ hu k).symm.trans h) (hstep s u hu hs)

/-! ### What an executed instruction reads: two runs that write the same -/

/-- The one thing an executed instruction writes, with its value, apart from the state it is written to. -/
inductive Write
  | reg (rd : RegNum) (v : Word)
  | mem (a : Addr) (v : Word)
  | cr (v : Query)
  | pc (target : Addr)

/-- The state after a write, and after the advance for all but a jump. -/
def Write.apply : Write → State → State
  | .reg rd v, s => (s.writeReg rd v).advance
  | .mem a v, s => (s.store a v).advance
  | .cr v, s => (s.setCr v).advance
  | .pc target, s => s.setPc target

/-- What an instruction writes depends on the registers and `pc`, and for MLD on data memory: in two states that agree there,
it is the same write. Neither `$CR` nor instruction memory is an operand. -/
theorem exec_same_write {i : Instr} {s s' : State} (hx : s'.x = s.x) (hpc : s'.pc = s.pc)
    (hdmem : isMld i = true → s'.dmem = s.dmem) :
    ∃ w : Write, exec i s = conditionally i.query s (w.apply s) ∧ exec i s' = conditionally i.query s' (w.apply s') := by
  obtain ⟨x, pc, cr, imem, dmem⟩ := s
  obtain ⟨x', pc', cr', imem', dmem'⟩ := s'
  obtain rfl : x' = x := hx
  obtain rfl : pc' = pc := hpc
  cases i with
  | mldReg | mldImm =>
    obtain rfl : dmem' = dmem := hdmem rfl
    exact ⟨.reg _ _, rfl, rfl⟩
  | mstReg | mstImm => exact ⟨.mem _ _, rfl, rfl⟩
  | cmpReg | cmpImm => exact ⟨.cr _, rfl, rfl⟩
  | jmpReg | jmpImm => exact ⟨.pc _, rfl, rfl⟩
  | _ => exact ⟨.reg _ _, rfl, rfl⟩

theorem Write.apply_withImem (w : Write) (s : State) (m : Memory) :
    w.apply { s with imem := m } = { w.apply s with imem := m } := by
  cases w with
  | reg | mem | cr | pc => rfl

/-- Whatever data memory holds, a write leaves the same registers, `pc` and `$CR`. -/
theorem Write.apply_withDmem (w : Write) (s : State) (m : Memory) :
    (w.apply { s with dmem := m }).x = (w.apply s).x ∧ (w.apply { s with dmem := m }).pc = (w.apply s).pc ∧
    (w.apply { s with dmem := m }).cr = (w.apply s).cr := by
  cases w with
  | reg | mem | cr | pc => exact ⟨rfl, rfl, rfl⟩

/-- Each word of data memory is kept by a write to every state, or set to one value in all. -/
theorem Write.load_apply (w : Write) (a : Addr) :
    (∀ s : State, (w.apply s).load a = s.load a) ∨ ∀ s s' : State, (w.apply s').load a = (w.apply s).load a := by
  cases w with
  | reg | cr | pc => exact .inl fun _ => rfl
  | mem b v =>
    by_cases h : a = b
    · exact .inr fun s s' => by simp [Write.apply, h]
    · exact .inl fun s => by simp [Write.apply, h]

/-! ### The effective address -/

/-- The sum modulo 2^32 and the sum have the same low 24 bits. -/
theorem effectiveAddress_toNat (base offset : Word) :
    (effectiveAddress base offset).toNat = (base.toNat + offset.toNat) % 2 ^ 24 := by
  have hdvd : 2 ^ 24 ∣ 2 ^ 32 := Nat.pow_dvd_pow 2 (by decide)
  rw [effectiveAddress, BitVec.extractLsb'_toNat, Nat.shiftRight_zero, BitVec.toNat_add, Nat.mod_mod_of_dvd _ hdvd]

end Sys2Proof.Machine

namespace Sys2Proof.Proofs

open Sys2Proof.Machine Sys2Proof.Claims

/-- Settles O14: an executed instruction by its effect, a skipped one by the advance, which keeps data memory. -/
theorem onlyExecutedMstWritesDataMemory : Obligations.OnlyExecutedMstWritesDataMemory := by
  unfold Obligations.OnlyExecutedMstWritesDataMemory
  intro i s hnot
  by_cases hexec : Executes i.query s
  · obtain ⟨t, ht, heff⟩ := exec_of_executes hexec
    exact ⟨t, ht, heff.load_eq_of_not_isMst fun hmst => hnot ⟨hmst, hexec⟩⟩
  · exact ⟨s.advance, exec_of_not_executes hexec, s.load_advance⟩

/-- Settles O15: every step keeps instruction memory, so every run does. -/
theorem instructionMemoryIsConstant : Obligations.InstructionMemoryIsConstant := by
  unfold Obligations.InstructionMemoryIsConstant
  intro k s t h
  have hstep (u v : State) (hv : step u = .next v) (hu : u.imem = s.imem) : v.imem = s.imem :=
    (imem_eq_of_exec hv).trans hu
  exact run_keeps hstep k h rfl

/-- Settles O17: both runs execute the same write or both are skipped, and each keeps its own instruction memory. -/
theorem instructionMemoryIsNotReadAsData : Obligations.InstructionMemoryIsNotReadAsData := by
  unfold Obligations.InstructionMemoryIsNotReadAsData
  intro i s t m ht
  obtain ⟨w, hs, hs'⟩ := exec_same_write (i := i) (s := s) (s' := { s with imem := m }) rfl rfl fun _ => rfl
  rw [hs', conditionally_next]
  obtain ⟨hq, rfl⟩ | ⟨hq, rfl⟩ := conditionally_next.1 (hs.symm.trans ht)
  · exact .inl ⟨hq, (w.apply_withImem s m).symm⟩
  · exact .inr ⟨hq, rfl⟩

/-- Settles O18: an executed instruction that is no MLD makes the same write in both runs, and a skipped one only advances
both. -/
theorem onlyMldReadsDataMemory : Obligations.OnlyMldReadsDataMemory := by
  unfold Obligations.OnlyMldReadsDataMemory
  intro i s t m hnot ht
  by_cases hexec : Executes i.query s
  · obtain ⟨w, hs, hs'⟩ := exec_same_write (i := i) (s := s) (s' := { s with dmem := m }) rfl rfl
      fun hmld => absurd ⟨hmld, hexec⟩ hnot
    rw [hs, conditionally_of_passes hexec] at ht
    obtain rfl : w.apply s = t := Host.Outcome.next.inj ht
    obtain ⟨hx, hpc, hcr⟩ := w.apply_withDmem s m
    exact ⟨_, hs'.trans (conditionally_of_passes (s := { s with dmem := m }) hexec _), hx, hpc, hcr,
      fun a => (w.load_apply a).imp (fun hkept => ⟨hkept _, hkept _⟩) fun hset => hset _ _⟩
  · rw [exec_of_not_executes hexec] at ht
    obtain rfl : s.advance = t := Host.Outcome.next.inj ht
    exact ⟨_, exec_of_not_executes hexec, rfl, rfl, rfl, fun _ => .inl ⟨rfl, rfl⟩⟩

/-- Settles O30: 2^24 divides 2^32, so the wrap of the sum at 32 bits does not show. -/
theorem effectiveAddressIsTruncatedSum : Obligations.EffectiveAddressIsTruncatedSum :=
  effectiveAddress_toNat

end Sys2Proof.Proofs
end

