-- ==== Sys2Proof/Proofs/Encoding.lean ====
section
/-! PROOFS. Encoder and decoder are inverse up to the unused bits: an instruction's word gives every field back, and a word's
fields put together again give the word with its unused bits cleared (30_encoding.md R72 to R77). -/

namespace Sys2Proof

/-! ### The two formats of the decoder -/

theorem decode_of_register_format {w : Word} (h : immediateBit w = false) : decode w = decodeReg w := by
  simp [decode, h]

theorem decode_of_immediate_format {w : Word} (h : immediateBit w = true) : decode w = decodeImm w := by
  simp [decode, h]

theorem query_decode (w : Word) : (decode w).query = queryField w := by
  cases h : immediateBit w with
  | false =>
    rw [decode_of_register_format h, decodeReg]
    split <;> rfl
  | true =>
    rw [decode_of_immediate_format h, decodeImm]
    split <;> rfl

/-! ### Decoding an encoded instruction -/

/-- Each row reads every field back from its format's word, the opcode among them, which selects the row again. -/
theorem decode_encode (i : Instr) : decode (encode i) = i := by
  cases i with
  | shlReg | shrReg | andReg | iorReg | xorReg | stuReg | mulReg | divReg | subReg | addReg | mldReg | mstReg
  | stlReg | cmpReg | lnkReg | jmpReg => simp [encode, decode_of_register_format, decodeReg]
  | shlImm | shrImm | andImm | iorImm | xorImm | stuImm | mulImm | divImm | subImm | addImm | mldImm | mstImm
  | stlImm | cmpImm | lnkImm | jmpImm => simp [encode, decode_of_immediate_format, decodeImm]

/-! ### Encoding a decoded word -/

/-- A decoded word of the register format is encoded from its own fields, in the format of its opcode. -/
theorem encode_decodeReg (w : Word) :
    encode (decodeReg w) =
      if (opcodeField w).toNat ≤ 11 then
        wordThreeReg (opcodeField w) (queryField w) (rdField w) (rsField w) (riField w)
      else if (opcodeField w).toNat ≤ 14 then wordTwoReg (opcodeField w) (queryField w) (rdField w) (riField w)
      else wordOneReg (opcodeField w) (queryField w) (riField w) := by
  rw [decodeReg]
  -- One case for each of the 16 opcodes.
  generalize opcodeField w = op
  fin_cases op <;> rfl

/-- A decoded word of the immediate format is encoded from its own fields, in the format of its opcode. -/
theorem encode_decodeImm (w : Word) :
    encode (decodeImm w) =
      if (opcodeField w).toNat ≤ 11 then
        wordThreeImm (opcodeField w) (queryField w) (rdField w) (rsField w) (imm16Field w)
      else if (opcodeField w).toNat ≤ 14 then wordTwoImm (opcodeField w) (queryField w) (rdField w) (imm20Field w)
      else wordOneImm (opcodeField w) (queryField w) (imm24Field w) := by
  rw [decodeImm]
  -- One case for each of the 16 opcodes.
  generalize opcodeField w = op
  fin_cases op <;> rfl

/-! ### The fields of a word put together again

A field read and placed where it was read keeps the word's bits under the field's mask, so a format's fields together keep the
bits under the union of their masks: all bits in the immediate formats, all but the unused ones in the register formats. -/

theorem placeField_extractLsb' (w : Word) (k n : Nat) :
    placeField (w.extractLsb' k n) k = w &&& placeField (BitVec.allOnes n) k := by
  apply BitVec.eq_of_getLsbD_eq
  intro i hi
  rw [BitVec.getLsbD_and, placeField_getLsbD, placeField_getLsbD, BitVec.getLsbD_extractLsb', BitVec.getLsbD_allOnes]
  by_cases hk : i < k
  · simp [hk]
  · have hshift : k + (i - k) = i := by omega
    simp [hk, hi, hshift, Bool.and_comm]

theorem ofBool_immediateBit (w : Word) : BitVec.ofBool (immediateBit w) = w.extractLsb' 24 1 := by
  ext i hi
  obtain rfl : i = 0 := by omega
  simp [immediateBit]

theorem wordHead_fields (w : Word) : wordHead (opcodeField w) (queryField w) (immediateBit w) = w &&& 0xFF000000#32 := by
  simp only [wordHead, opcodeField, queryField, ofBool_immediateBit, placeField_extractLsb', ← BitVec.and_or_distrib_left]
  rfl

theorem wordThreeReg_fields {w : Word} (h : immediateBit w = false) :
    wordThreeReg (opcodeField w) (queryField w) (rdField w) (rsField w) (riField w) = w &&& ~~~ 0x0000FFF0#32 := by
  simp only [wordThreeReg, ← h, wordHead_fields, rdField, rsField, riField, placeField_extractLsb',
    ← BitVec.and_or_distrib_left]
  rfl

theorem wordTwoReg_fields {w : Word} (h : immediateBit w = false) :
    wordTwoReg (opcodeField w) (queryField w) (rdField w) (riField w) = w &&& ~~~ 0x000FFFF0#32 := by
  simp only [wordTwoReg, ← h, wordHead_fields, rdField, riField, placeField_extractLsb', ← BitVec.and_or_distrib_left]
  rfl

theorem wordOneReg_fields {w : Word} (h : immediateBit w = false) :
    wordOneReg (opcodeField w) (queryField w) (riField w) = w &&& ~~~ 0x00FFFFF0#32 := by
  simp only [wordOneReg, ← h, wordHead_fields, riField, placeField_extractLsb', ← BitVec.and_or_distrib_left]
  rfl

theorem wordThreeImm_fields {w : Word} (h : immediateBit w = true) :
    wordThreeImm (opcodeField w) (queryField w) (rdField w) (rsField w) (imm16Field w) = w := by
  simp only [wordThreeImm, ← h, wordHead_fields, rdField, rsField, imm16Field, placeField_extractLsb',
    ← BitVec.and_or_distrib_left]
  exact BitVec.and_allOnes

theorem wordTwoImm_fields {w : Word} (h : immediateBit w = true) :
    wordTwoImm (opcodeField w) (queryField w) (rdField w) (imm20Field w) = w := by
  simp only [wordTwoImm, ← h, wordHead_fields, rdField, imm20Field, placeField_extractLsb', ← BitVec.and_or_distrib_left]
  exact BitVec.and_allOnes

theorem wordOneImm_fields {w : Word} (h : immediateBit w = true) :
    wordOneImm (opcodeField w) (queryField w) (imm24Field w) = w := by
  simp only [wordOneImm, ← h, wordHead_fields, imm24Field, placeField_extractLsb', ← BitVec.and_or_distrib_left]
  exact BitVec.and_allOnes

/-! ### The unused bits -/

theorem clearUnused_of_register_format {w : Word} (h : immediateBit w = false) :
    clearUnused w =
      if (opcodeField w).toNat ≤ 11 then w &&& ~~~ 0x0000FFF0#32
      else if (opcodeField w).toNat ≤ 14 then w &&& ~~~ 0x000FFFF0#32
      else w &&& ~~~ 0x00FFFFF0#32 := by
  rw [immediateBit] at h
  rw [clearUnused, unusedMask, h, if_neg Bool.false_ne_true, opcodeField]
  split_ifs <;> rfl

theorem clearUnused_of_immediate_format {w : Word} (h : immediateBit w = true) : clearUnused w = w := by
  rw [immediateBit] at h
  rw [clearUnused, unusedMask, if_pos h]
  exact BitVec.and_allOnes

theorem clearUnused_of_canonicalWord {w : Word} (h : canonicalWord w = true) : clearUnused w = w := by
  rw [canonicalWord, beq_iff_eq] at h
  calc clearUnused w
      = (w &&& unusedMask w) ||| clearUnused w := by rw [h, BitVec.zero_or]
    _ = w &&& (unusedMask w ||| ~~~ unusedMask w) := BitVec.and_or_distrib_left.symm
    _ = w &&& BitVec.allOnes 32 := by rw [BitVec.or_not_self]
    _ = w := BitVec.and_allOnes

/-- The mask of the rows covers no unused bit. -/
theorem clearUnused_and_rowMask (w : Word) : clearUnused w &&& rowMask = w &&& rowMask := by
  cases h : immediateBit w with
  | true => rw [clearUnused_of_immediate_format h]
  | false =>
    rw [clearUnused_of_register_format h]
    split_ifs <;> exact BitVec.and_assoc ..

theorem encode_decode (w : Word) : encode (decode w) = clearUnused w := by
  cases h : immediateBit w with
  | false =>
    rw [decode_of_register_format h, encode_decodeReg, wordThreeReg_fields h, wordTwoReg_fields h, wordOneReg_fields h,
      clearUnused_of_register_format h]
  | true =>
    rw [decode_of_immediate_format h, encode_decodeImm, wordThreeImm_fields h, wordTwoImm_fields h, wordOneImm_fields h,
      ite_self, ite_self, clearUnused_of_immediate_format h]

/-! ### The row -/

/-- Every instruction's word matches its row. -/
theorem encode_and_rowMask (i : Instr) : encode i &&& rowMask = i.rowMatch := by
  cases i with
  | shlReg | shrReg | andReg | iorReg | xorReg | stuReg | mulReg | divReg | subReg | addReg | mldReg | mstReg =>
    exact (Laws.wordThreeReg_and_rowMask ..).trans rfl
  | shlImm | shrImm | andImm | iorImm | xorImm | stuImm | mulImm | divImm | subImm | addImm | mldImm | mstImm =>
    exact (Laws.wordThreeImm_and_rowMask ..).trans rfl
  | stlReg | cmpReg | lnkReg => exact (Laws.wordTwoReg_and_rowMask ..).trans rfl
  | stlImm | cmpImm | lnkImm => exact (Laws.wordTwoImm_and_rowMask ..).trans rfl
  | jmpReg => exact (Laws.wordOneReg_and_rowMask ..).trans rfl
  | jmpImm => exact (Laws.wordOneImm_and_rowMask ..).trans rfl

theorem rowMatch_decode (w : Word) : (decode w).rowMatch = w &&& rowMask := by
  rw [← encode_and_rowMask, encode_decode, clearUnused_and_rowMask]

end Sys2Proof

namespace Sys2Proof.Proofs

/-- Settles O1: each row reads every field back from the word of its format. -/
theorem decodeOfEncodeIsIdentity : Obligations.DecodeOfEncodeIsIdentity :=
  decode_encode

/-- Settles O2: a decoded word is encoded from its own fields, which cover all but its unused bits. -/
theorem encodeOfDecodeClearsUnusedBits : Obligations.EncodeOfDecodeClearsUnusedBits := by
  unfold Obligations.EncodeOfDecodeClearsUnusedBits
  intro w
  exact ⟨encode_decode w, fun hcanonical => (encode_decode w).trans (clearUnused_of_canonicalWord hcanonical)⟩

/-- Settles O4: the word of the decoded instruction matches its row, and differs from `w` only in bits the mask does not cover. -/
theorem everyWordDecodesIntoItsRow : Obligations.EveryWordDecodesIntoItsRow := by
  unfold Obligations.EveryWordDecodesIntoItsRow
  intro w
  exact ⟨rowMatch_decode w, query_decode w⟩

/-- Settles O5: each fixed word is decoded by evaluation. -/
theorem sampleWordsDecode : Obligations.SampleWordsDecode := by
  unfold Obligations.SampleWordsDecode
  decide

end Sys2Proof.Proofs
end

