-- ==== Sys2Proof/Proofs/Queries.lean ====
section
/-! PROOFS. The eight queries after a comparison: on each of the three values CMP leaves in `$CR`, the mask test and the relation
agree (30_encoding.md R78, 40_execution_cycle.md R93, 44_set_compare_link.md R150). -/

namespace Sys2Proof.Machine

open Sys2Proof.Claims

theorem compareSigned_of_lt {a b : Word} (h : a.toInt < b.toInt) : compareSigned a b = 0b100#3 := by
  rw [compareSigned, if_pos h, queryLt]

theorem compareSigned_self (a : Word) : compareSigned a a = 0b010#3 := by
  rw [compareSigned, if_neg (lt_irrefl _), if_pos rfl, queryEq]

theorem compareSigned_of_gt {a b : Word} (h : b.toInt < a.toInt) : compareSigned a b = 0b001#3 := by
  have hne : a ≠ b := fun hab => (hab ▸ h).false
  rw [compareSigned, if_neg h.asymm, if_neg hne, queryGt]

theorem queriesTell_of_cr_eq_compareSigned {a b : Word} {t : State} (h : t.cr = compareSigned a b) :
    QueriesTell a.toInt b.toInt t := by
  unfold QueriesTell
  rcases lt_trichotomy a.toInt b.toInt with hlt | heq | hgt
  · rw [compareSigned_of_lt hlt] at h
    simp [Executes, h]
    omega
  · obtain rfl : a = b := BitVec.toInt_inj.1 heq
    rw [compareSigned_self] at h
    simp [Executes, h]
  · rw [compareSigned_of_gt hgt] at h
    simp [Executes, h]
    omega

theorem immediate20_toInt (v : BitVec 20) : (immediate20 v).toInt = v.toInt :=
  BitVec.toInt_signExtend_of_le (by decide)

end Sys2Proof.Machine

namespace Sys2Proof.Proofs

open Sys2Proof.Machine Sys2Proof.Claims

/-- Settles O11: an executed CMP leaves the signed comparison of its operands in `$CR`, and the sign extension of an immediate
keeps its signed value. -/
theorem queriesMeanTheirRelations : Obligations.QueriesMeanTheirRelations := by
  unfold Obligations.QueriesMeanTheirRelations
  intro cq rd s hexec
  refine ⟨fun ri => ⟨_, conditionally_of_passes hexec _, queriesTell_of_cr_eq_compareSigned rfl⟩,
    fun v => ⟨_, conditionally_of_passes hexec _, ?_⟩⟩
  rw [← immediate20_toInt v]
  exact queriesTell_of_cr_eq_compareSigned rfl

end Sys2Proof.Proofs
end

