-- ==== Sys2Proof/Proofs/RegisterFrame.lean ====
section
/-! PROOFS. The frame of the general registers: an instruction writes at most its destination (30_encoding.md R79). -/

namespace Sys2Proof.Machine

open Sys2Proof.Claims

theorem Effect.readReg_eq_of_ne_destination {i : Instr} {s t : State} {r : RegNum} (h : Effect i s t)
    (hr : destination i ≠ some r) : t.readReg r = s.readReg r := by
  cases h with
  | @writeReg rd v hrd =>
    have hne : r ≠ rd := fun heq => hr (heq ▸ hrd)
    rw [State.readReg_advance, State.readReg_writeReg_of_ne _ _ _ _ hne]
  | store | setCr | setPc => rfl

end Sys2Proof.Machine

namespace Sys2Proof.Proofs

open Sys2Proof.Machine Sys2Proof.Claims

/-- Settles O16: an executed instruction by its effect, a skipped one by the advance, which keeps every register. -/
theorem onlyTheDestinationRegisterChanges : Obligations.OnlyTheDestinationRegisterChanges := by
  unfold Obligations.OnlyTheDestinationRegisterChanges
  intro i s r hr
  by_cases hexec : Executes i.query s
  · obtain ⟨t, ht, heff⟩ := exec_of_executes hexec
    exact ⟨t, ht, heff.readReg_eq_of_ne_destination hr⟩
  · exact ⟨s.advance, exec_of_not_executes hexec, s.readReg_advance r⟩

end Sys2Proof.Proofs
end

