-- ==== Sys2Proof/Proofs/ExecutionCycle.lean ====
section
/-! PROOFS. The execution cycle: fetch at `pc`, decode, run or skip, advance; and that it never stops (40_execution_cycle.md
R90 to R96). -/

namespace Sys2Proof.Machine

open Sys2Proof.Claims

/-! ### Fetching a placed instruction -/

theorem State.fetchWord_withFetchWord (s : State) (w : Word) : (s.withFetchWord 32 w.toNat).fetchWord = w := by
  simp [State.fetchWord, Nat.mod_eq_of_lt w.isLt]

theorem State.read_imem_withFetchWord_of_ne (s : State) (nbits w : Nat) {a : Addr} (h : a ≠ s.pc) :
    Memory.read (s.withFetchWord nbits w).imem a = Memory.read s.imem a :=
  Memory.read_write_of_ne _ _ _ _ h

/-! ### Completion -/

theorem exists_exec (i : Instr) (s : State) : ∃ t, exec i s = .next t := by
  obtain ⟨_, -, hexec⟩ := exec_eq_conditionally_effect i s
  exact ⟨_, hexec⟩

theorem exists_run (k : Nat) (s : State) : ∃ t, Host.Core.run core k s = .next t := by
  induction k generalizing s with
  | zero => exact ⟨s, rfl⟩
  | succ k ih =>
    obtain ⟨u, hu⟩ := exists_step s
    obtain ⟨t, ht⟩ := ih u
    exact ⟨t, (run_succ hu k).trans ht⟩

/-! ### The advance -/

theorem State.advance_pc_toNat (s : State) : s.advance.pc.toNat = (s.pc.toNat + 1) % 2 ^ 24 :=
  BitVec.toNat_add s.pc 1#24

theorem Effect.pc_eq_of_not_isJmp {i : Instr} {s t : State} (h : Effect i s t) (hjmp : ¬ isJmp i = true) :
    t.pc = s.advance.pc := by
  cases h with
  | setPc target h => exact absurd h hjmp
  | writeReg | store | setCr => rfl

end Sys2Proof.Machine

namespace Sys2Proof.Proofs

open Sys2Proof.Machine Sys2Proof.Claims

/-- Settles O6: the step is the meaning of the decoded word by definition. -/
theorem stepRunsTheDecodedInstruction : Obligations.StepRunsTheDecodedInstruction := by
  unfold Obligations.StepRunsTheDecodedInstruction
  intro s i hdecode
  exact step_of_decode hdecode

/-- Settles O7: the fetch reads the placed word back, and the decoder the instruction it encodes. -/
theorem placedInstructionRuns : Obligations.PlacedInstructionRuns := by
  unfold Obligations.PlacedInstructionRuns
  intro s i
  have hdecode : decode (s.withFetchWord 32 (encode i).toNat).fetchWord = i :=
    (congrArg decode (s.fetchWord_withFetchWord (encode i))).trans (decode_encode i)
  exact ⟨step_of_decode hdecode, fun _ ha => s.read_imem_withFetchWord_of_ne _ _ ha, rfl⟩

/-- Settles O8: every arm of `exec` answers a next state, and a run is a chain of steps. -/
theorem theMachineNeverStops : Obligations.TheMachineNeverStops :=
  ⟨exists_exec, exists_run⟩

/-- Settles O10: an executed instruction by its effect, of which only JMP's sets `pc`; a skipped one is the advance itself. -/
theorem programCounterAdvancesByOne : Obligations.ProgramCounterAdvancesByOne := by
  unfold Obligations.ProgramCounterAdvancesByOne
  intro i s h
  by_cases hexec : Executes i.query s
  · have hjmp : isJmp i = false := h.resolve_right fun hskip => hskip hexec
    obtain ⟨t, ht, heff⟩ := exec_of_executes hexec
    refine ⟨t, ht, ?_⟩
    rw [heff.pc_eq_of_not_isJmp (by simp [hjmp]), State.advance_pc_toNat]
  · exact ⟨s.advance, exec_of_not_executes hexec, s.advance_pc_toNat⟩

end Sys2Proof.Proofs
end

