-- ==== Sys2Proof/Proofs/WrittenResult.lean ====
section
/-! PROOFS. The shape shared by the instructions that write a result: `writeResult` writes the value with its frame, and a
3-ARG instruction is its two formats' words and `writeResult` of a value of its two operands (30_encoding.md R64, R67, R68,
R79). -/

namespace Sys2Proof.Machine

open Sys2Proof.Claims

theorem threeArgEncoded_of_words {op : BitVec 4} {reg : Query → RegNum → RegNum → RegNum → Instr}
    {imm : Query → RegNum → RegNum → BitVec 16 → Instr}
    (hreg : ∀ cq rd rs ri, encode (reg cq rd rs ri) = wordThreeReg op cq rd rs ri)
    (himm : ∀ cq rd rs v, encode (imm cq rd rs v) = wordThreeImm op cq rd rs v) : ThreeArgEncoded op reg imm :=
  fun cq rd rs => ⟨fun ri => (hreg cq rd rs ri).trans (wordThreeReg_eq_append ..),
    fun v => (himm cq rd rs v).trans (wordThreeImm_eq_append ..)⟩

theorem resultWritten_writeReg_advance (rd : RegNum) (v : Word) (s : State) :
    ResultWritten rd v s (s.writeReg rd v).advance :=
  ⟨s.readReg_writeReg_self rd v, fun r hr => s.readReg_writeReg_of_ne rd r v hr, rfl, fun _ => rfl, fun _ => rfl⟩

theorem exists_resultWritten_of_writeResult {o : Host.Outcome State Fault Refusal} {cq : Query} {rd : RegNum} {v : Word}
    {s : State} (hexec : Executes cq s) (h : o = writeResult cq rd v s) : ∃ t, o = .next t ∧ ResultWritten rd v s t :=
  ⟨_, h.trans (writeResult_of_passes hexec rd v), resultWritten_writeReg_advance rd v s⟩

/-- The model's `operation` and the `value` a statement names need only agree on every pair of operands. -/
theorem threeArgResult_of_writeResult {reg : Query → RegNum → RegNum → RegNum → Instr}
    {imm : Query → RegNum → RegNum → BitVec 16 → Instr} {operation value : Word → Word → Word}
    (hreg : ∀ cq rd rs ri s,
      exec (reg cq rd rs ri) s = writeResult cq rd (operation (s.readReg rs) (registerOperand ri s)) s)
    (himm : ∀ cq rd rs v s, exec (imm cq rd rs v) s = writeResult cq rd (operation (s.readReg rs) (immediate16 v)) s)
    (hvalue : ∀ a b, operation a b = value a b) : ThreeArgResult reg imm value := by
  obtain rfl : operation = value := funext₂ hvalue
  intro cq rd rs s hexec
  exact ⟨fun ri => exists_resultWritten_of_writeResult hexec (hreg cq rd rs ri s),
    fun v => exists_resultWritten_of_writeResult hexec (himm cq rd rs v s)⟩

end Sys2Proof.Machine
end

