-- ==== Sys2Proof/Proofs/ShiftBitwise.lean ====
section
/-! PROOFS. What SHL, SHR, AND, IOR, XOR and STU do: the values of the shifts and of STU as arithmetic, and each instruction as
a 3-ARG instruction that writes its value (41_shift_and_bitwise.md R106 to R111). -/

namespace Sys2Proof.Machine

theorem shiftAmount_toNat (ri : Word) : (shiftAmount ri).toNat = ri.toNat % 32 := by
  rw [shiftAmount, BitVec.extractLsb'_toNat, Nat.shiftRight_zero]

theorem shiftLeft_eq_mul_two_pow (rs ri : Word) :
    shiftLeft rs ri = BitVec.ofNat 32 (rs.toNat * 2 ^ (ri.toNat % 32)) := by
  apply BitVec.eq_of_toNat_eq
  rw [shiftLeft, BitVec.toNat_shiftLeft, shiftAmount_toNat, Nat.shiftLeft_eq, BitVec.toNat_ofNat]

theorem shiftRight_eq_div_two_pow (rs ri : Word) :
    shiftRight rs ri = BitVec.ofNat 32 (rs.toNat / 2 ^ (ri.toNat % 32)) := by
  have hlt : rs.toNat / 2 ^ (ri.toNat % 32) < 2 ^ 32 := (Nat.div_le_self ..).trans_lt rs.isLt
  apply BitVec.eq_of_toNat_eq
  rw [shiftRight, BitVec.toNat_ushiftRight, shiftAmount_toNat, Nat.shiftRight_eq_div_pow, BitVec.toNat_ofNat,
    Nat.mod_eq_of_lt hlt]

theorem setUpper_eq_halves (rs ri : Word) :
    setUpper rs ri = BitVec.ofNat 32 (ri.toNat % 2 ^ 16 * 2 ^ 16 + rs.toNat % 2 ^ 16) := by
  apply BitVec.eq_of_toNat_eq
  have hlow : rs.toNat % 2 ^ 16 < 2 ^ 16 := Nat.mod_lt _ (by decide)
  rw [setUpper, BitVec.toNat_append, BitVec.extractLsb'_toNat, BitVec.extractLsb'_toNat, Nat.shiftRight_zero,
    Nat.shiftRight_zero, ← Nat.shiftLeft_add_eq_or_of_lt hlow, Nat.shiftLeft_eq, BitVec.toNat_ofNat]
  omega

end Sys2Proof.Machine

namespace Sys2Proof.Proofs

open Sys2Proof.Machine Sys2Proof.Claims

/-- Settles O19: a left shift multiplies by a power of two, modulo 2^32. -/
theorem shlResult : Obligations.ShlResult :=
  ⟨threeArgEncoded_of_words (fun _ _ _ _ => rfl) (fun _ _ _ _ => rfl),
    threeArgResult_of_writeResult (fun _ _ _ _ _ => rfl) (fun _ _ _ _ _ => rfl) shiftLeft_eq_mul_two_pow⟩

/-- Settles O20: a logical right shift divides by a power of two, and the quotient fits a word. -/
theorem shrResult : Obligations.ShrResult :=
  ⟨threeArgEncoded_of_words (fun _ _ _ _ => rfl) (fun _ _ _ _ => rfl),
    threeArgResult_of_writeResult (fun _ _ _ _ _ => rfl) (fun _ _ _ _ _ => rfl) shiftRight_eq_div_two_pow⟩

/-- Settles O21: the value is the model's `bitAnd` itself. -/
theorem andResult : Obligations.AndResult :=
  ⟨threeArgEncoded_of_words (fun _ _ _ _ => rfl) (fun _ _ _ _ => rfl),
    threeArgResult_of_writeResult (operation := bitAnd) (fun _ _ _ _ _ => rfl) (fun _ _ _ _ _ => rfl) fun _ _ => rfl⟩

/-- Settles O22: the value is the model's `bitOr` itself. -/
theorem iorResult : Obligations.IorResult :=
  ⟨threeArgEncoded_of_words (fun _ _ _ _ => rfl) (fun _ _ _ _ => rfl),
    threeArgResult_of_writeResult (operation := bitOr) (fun _ _ _ _ _ => rfl) (fun _ _ _ _ _ => rfl) fun _ _ => rfl⟩

/-- Settles O23: the value is the model's `bitXor` itself. -/
theorem xorResult : Obligations.XorResult :=
  ⟨threeArgEncoded_of_words (fun _ _ _ _ => rfl) (fun _ _ _ _ => rfl),
    threeArgResult_of_writeResult (operation := bitXor) (fun _ _ _ _ _ => rfl) (fun _ _ _ _ _ => rfl) fun _ _ => rfl⟩

/-- Settles O24: the two halves side by side are the upper half times 2^16 plus the lower. -/
theorem stuResult : Obligations.StuResult :=
  ⟨threeArgEncoded_of_words (fun _ _ _ _ => rfl) (fun _ _ _ _ => rfl),
    threeArgResult_of_writeResult (fun _ _ _ _ _ => rfl) (fun _ _ _ _ _ => rfl) setUpper_eq_halves⟩

end Sys2Proof.Proofs
end

