-- ==== Sys2Proof/Proofs/Arithmetic.lean ====
section
/-! PROOFS. What MUL, DIV, SUB and ADD do: each value as integer arithmetic on the signed and on the unsigned readings, the three
cases of DIV, and the rounding of its quotient (42_arithmetic.md R121 to R124, R128). -/

namespace Sys2Proof.Machine

/-! ### MUL, SUB and ADD: `BitVec.ofInt 32` and `BitVec.ofNat 32` carry the integer operation to words -/

theorem multiply_eq_signed_product (rs ri : Word) : multiply rs ri = BitVec.ofInt 32 (rs.toInt * ri.toInt) := by
  rw [multiply, BitVec.ofInt_mul, BitVec.ofInt_toInt, BitVec.ofInt_toInt]

theorem multiply_eq_unsigned_product (rs ri : Word) : multiply rs ri = BitVec.ofNat 32 (rs.toNat * ri.toNat) :=
  BitVec.mul_def

theorem word_ofInt_sub (x y : Int) : BitVec.ofInt 32 (x - y) = BitVec.ofInt 32 x - BitVec.ofInt 32 y := by
  rw [Int.sub_eq_add_neg, BitVec.ofInt_add, BitVec.ofInt_neg, BitVec.sub_eq_add_neg]

theorem subtract_eq_signed_difference (rs ri : Word) : subtract rs ri = BitVec.ofInt 32 (ri.toInt - rs.toInt) := by
  rw [subtract, word_ofInt_sub, BitVec.ofInt_toInt, BitVec.ofInt_toInt]

theorem subtract_eq_unsigned_difference (rs ri : Word) :
    subtract rs ri = BitVec.ofInt 32 ((ri.toNat : Int) - (rs.toNat : Int)) := by
  rw [subtract, word_ofInt_sub, BitVec.ofInt_natCast, BitVec.ofInt_natCast, BitVec.ofNat_toNat, BitVec.ofNat_toNat,
    BitVec.setWidth_eq, BitVec.setWidth_eq]

theorem addWrap_eq_signed_sum (rs ri : Word) : addWrap rs ri = BitVec.ofInt 32 (rs.toInt + ri.toInt) := by
  rw [addWrap, BitVec.ofInt_add, BitVec.ofInt_toInt, BitVec.ofInt_toInt]

theorem addWrap_eq_unsigned_sum (rs ri : Word) : addWrap rs ri = BitVec.ofNat 32 (rs.toNat + ri.toNat) :=
  BitVec.add_def rs ri

/-! ### DIV: its cases by signed value, and the signed value of its quotient -/

theorem word_toInt_eq_zero_iff (w : Word) : w.toInt = 0 ↔ w = 0#32 :=
  BitVec.toInt_inj (y := 0#32)

theorem word_toInt_eq_min_iff (w : Word) : w.toInt = -2 ^ 31 ↔ w = 0x80000000#32 :=
  BitVec.toInt_inj (y := 0x80000000#32)

theorem word_toInt_eq_neg_one_iff (w : Word) : w.toInt = -1 ↔ w = 0xFFFFFFFF#32 :=
  BitVec.toInt_inj (y := 0xFFFFFFFF#32)

theorem divide_eq_signed_cases (rs ri : Word) :
    divide rs ri =
      if ri.toInt = 0 then rs
      else if rs.toInt = -2 ^ 31 ∧ ri.toInt = -1 then 0x80000000#32
      else BitVec.ofInt 32 (rs.toInt.tdiv ri.toInt) := by
  simp only [divide, word_toInt_eq_zero_iff, word_toInt_eq_min_iff, word_toInt_eq_neg_one_iff]

/-- Outside the two special cases the quotient fits a word, so DIV's value is the integer quotient itself. -/
theorem divide_toInt {a b : Word} (hzero : b.toInt ≠ 0) (hoverflow : ¬ (a.toInt = -2 ^ 31 ∧ b.toInt = -1)) :
    (divide a b).toInt = a.toInt.tdiv b.toInt := by
  have hfits : a ≠ BitVec.intMin 32 ∨ b ≠ -1#32 := by
    rw [word_toInt_eq_min_iff, word_toInt_eq_neg_one_iff] at hoverflow
    exact not_and_or.1 hoverflow
  rw [divide_eq_signed_cases, if_neg hzero, if_neg hoverflow, ← BitVec.toInt_sdiv_of_ne_or_ne a b hfits,
    BitVec.ofInt_toInt]

theorem tdiv_neg_iff_signs_differ (x : Int) {y : Int} (hy : y ≠ 0) :
    x.tdiv y < 0 ↔ ((x < 0 ↔ 0 < y) ∧ x.tdiv y ≠ 0) := by
  rcases lt_or_ge x 0 with hx | hx <;> rcases lt_or_gt_of_ne hy with hy | hy
  · have hq : 0 ≤ x.tdiv y := Int.tdiv_nonneg_of_nonpos_of_nonpos hx.le hy.le
    omega
  · have hq : 0 ≤ -x.tdiv y := Int.neg_tdiv x y ▸ Int.tdiv_nonneg (by omega) hy.le
    omega
  · have hq : x.tdiv y ≤ 0 := Int.tdiv_nonpos_of_nonneg_of_nonpos hx hy.le
    omega
  · have hq : 0 ≤ x.tdiv y := Int.tdiv_nonneg hx hy.le
    omega

end Sys2Proof.Machine

namespace Sys2Proof.Proofs

open Sys2Proof.Machine

/-- Settles O25: multiplication modulo 2^32 does not depend on the reading of the operands. -/
theorem mulResult : Obligations.MulResult :=
  ⟨threeArgEncoded_of_words (fun _ _ _ _ => rfl) (fun _ _ _ _ => rfl),
    threeArgResult_of_writeResult (fun _ _ _ _ _ => rfl) (fun _ _ _ _ _ => rfl) multiply_eq_signed_product,
    threeArgResult_of_writeResult (fun _ _ _ _ _ => rfl) (fun _ _ _ _ _ => rfl) multiply_eq_unsigned_product⟩

/-- Settles O26: subtraction modulo 2^32 does not depend on the reading of the operands. -/
theorem subResult : Obligations.SubResult :=
  ⟨threeArgEncoded_of_words (fun _ _ _ _ => rfl) (fun _ _ _ _ => rfl),
    threeArgResult_of_writeResult (fun _ _ _ _ _ => rfl) (fun _ _ _ _ _ => rfl) subtract_eq_signed_difference,
    threeArgResult_of_writeResult (fun _ _ _ _ _ => rfl) (fun _ _ _ _ _ => rfl) subtract_eq_unsigned_difference⟩

/-- Settles O27: addition modulo 2^32 does not depend on the reading of the operands. -/
theorem addResult : Obligations.AddResult :=
  ⟨threeArgEncoded_of_words (fun _ _ _ _ => rfl) (fun _ _ _ _ => rfl),
    threeArgResult_of_writeResult (fun _ _ _ _ _ => rfl) (fun _ _ _ _ _ => rfl) addWrap_eq_signed_sum,
    threeArgResult_of_writeResult (fun _ _ _ _ _ => rfl) (fun _ _ _ _ _ => rfl) addWrap_eq_unsigned_sum⟩

/-- Settles O28: the words 0, 0x80000000 and 0xFFFFFFFF the model tests for are the only ones of their signed values. -/
theorem divResult : Obligations.DivResult :=
  ⟨threeArgEncoded_of_words (fun _ _ _ _ => rfl) (fun _ _ _ _ => rfl),
    threeArgResult_of_writeResult (fun _ _ _ _ _ => rfl) (fun _ _ _ _ _ => rfl) divide_eq_signed_cases⟩

/-- Settles O29: the quotient of DIV is the integer quotient rounded toward zero, which has this magnitude and this sign. -/
theorem divisionRoundsTowardZero : Obligations.DivisionRoundsTowardZero := by
  unfold Obligations.DivisionRoundsTowardZero
  intro a b hzero hoverflow
  rw [divide_toInt hzero hoverflow]
  exact ⟨Int.natAbs_tdiv _ _, tdiv_neg_iff_signs_differ _ hzero⟩

end Sys2Proof.Proofs
end

