-- ==== Sys2Proof/Proofs/CanonicalMemories.lean ====
section
/-! PROOFS. The canonical form of both memories is kept by every instruction, executed or skipped: only a store changes a
memory, and a store keeps the form (20_memory.md R40 to R44, 43_memory_access.md R137). -/

namespace Sys2Proof.Machine

theorem State.memWf_iff (s : State) : s.memWf = true ↔ Memory.wf s.imem = true ∧ Memory.wf s.dmem = true := by
  rw [State.memWf, Bool.and_eq_true]

@[simp] theorem State.memWf_advance (s : State) : s.advance.memWf = s.memWf := rfl

theorem State.memWf_store {s : State} (hs : s.memWf = true) (a : Addr) (v : Word) : (s.store a v).memWf = true := by
  obtain ⟨himem, hdmem⟩ := s.memWf_iff.1 hs
  exact (s.store a v).memWf_iff.2 ⟨himem, Memory.wf_write hdmem a v⟩

theorem Effect.memWf {i : Instr} {s t : State} (h : Effect i s t) (hs : s.memWf = true) : t.memWf = true := by
  cases h with
  | store a v => exact State.memWf_store hs a v
  | writeReg | setCr | setPc => exact hs

theorem memWf_of_exec {i : Instr} {s t : State} (h : exec i s = .next t) (hs : s.memWf = true) : t.memWf = true := by
  obtain ⟨done, heff, hexec⟩ := exec_eq_conditionally_effect i s
  obtain ⟨-, rfl⟩ | ⟨-, rfl⟩ := conditionally_next.1 (hexec.symm.trans h)
  · exact heff.memWf hs
  · exact s.memWf_advance.trans hs

end Sys2Proof.Machine

namespace Sys2Proof.Proofs

open Sys2Proof.Machine

/-- Settles O39: the step is the meaning of the decoded instruction, which answers a next state and keeps the form. -/
theorem stepKeepsMemoriesCanonical : Obligations.StepKeepsMemoriesCanonical := by
  unfold Obligations.StepKeepsMemoriesCanonical
  intro s hs
  obtain ⟨t, ht⟩ := exists_step s
  exact ⟨t, ht, memWf_of_exec ht hs⟩

end Sys2Proof.Proofs
end

