-- ==== Sys2Proof/Proofs/LoadStore.lean ====
section
/-! PROOFS. What MLD and MST do: MLD writes the word at the effective address to its destination, and MST stores a register
there and changes nothing else (43_memory_access.md R135 to R137). -/

namespace Sys2Proof.Machine

open Sys2Proof.Claims

theorem effectiveAddress_eq_address (base offset : Word) : effectiveAddress base offset = address base offset := by
  apply BitVec.eq_of_toNat_eq
  rw [effectiveAddress_toNat, address, BitVec.toNat_ofNat]

/-- The load of either format of MLD: its operand is `offset`. -/
theorem exists_loaded_of_writeResult {o : Host.Outcome State Fault Refusal} {cq : Query} {rd : RegNum} {base offset : Word}
    {s : State} (hexec : Executes cq s) (h : o = writeResult cq rd (s.load (effectiveAddress base offset)) s) :
    ∃ t, o = .next t ∧ ResultWritten rd (s.load (address base offset)) s t := by
  rw [effectiveAddress_eq_address] at h
  exact exists_resultWritten_of_writeResult hexec h

/-- The store of either format of MST, with its frame: its operand is `offset`. -/
theorem exists_stored_of_conditionally {o : Host.Outcome State Fault Refusal} {cq : Query} {base offset v : Word} {s : State}
    (hexec : Executes cq s) (h : o = conditionally cq s (s.store (effectiveAddress base offset) v).advance) :
    ∃ t, o = .next t ∧ (∀ a, t.load a = if a = address base offset then v else s.load a) ∧
      t.x = s.x ∧ t.cr = s.cr ∧ t.imem = s.imem := by
  rw [effectiveAddress_eq_address] at h
  exact ⟨_, h.trans (conditionally_of_passes hexec _), fun a => s.load_store _ a v, rfl, rfl, rfl⟩

end Sys2Proof.Machine

namespace Sys2Proof.Proofs

open Sys2Proof.Machine Sys2Proof.Claims

/-- Settles O31: both formats load at the effective address of the registers of before, then write their destination. -/
theorem mldResult : Obligations.MldResult :=
  ⟨threeArgEncoded_of_words (fun _ _ _ _ => rfl) (fun _ _ _ _ => rfl), fun _ _ _ _ hexec =>
    ⟨fun _ => exists_loaded_of_writeResult hexec rfl, fun _ => exists_loaded_of_writeResult hexec rfl⟩⟩

/-- Settles O32: both formats store `$RD` at the effective address, and a store reaches only that word of data memory. -/
theorem mstResult : Obligations.MstResult :=
  ⟨threeArgEncoded_of_words (fun _ _ _ _ => rfl) (fun _ _ _ _ => rfl), fun _ _ _ _ hexec =>
    ⟨fun _ => exists_stored_of_conditionally hexec rfl, fun _ => exists_stored_of_conditionally hexec rfl⟩⟩

end Sys2Proof.Proofs
end

