-- ==== Sys2Proof/Proofs/SetCompareLink.lean ====
section
/-! PROOFS. What STL, CMP and LNK do: the words of a 2-ARG instruction, the signed value of the immediate operand, the comparison
in `$CR` with its frame, and the sum with the instruction's own address (44_set_compare_link.md R146, R150, R153). -/

namespace Sys2Proof.Machine

open Sys2Proof.Claims

theorem twoArgEncoded_of_words {op : BitVec 4} {reg : Query → RegNum → RegNum → Instr}
    {imm : Query → RegNum → BitVec 20 → Instr} (hreg : ∀ cq rd ri, encode (reg cq rd ri) = wordTwoReg op cq rd ri)
    (himm : ∀ cq rd v, encode (imm cq rd v) = wordTwoImm op cq rd v) : TwoArgEncoded op reg imm :=
  fun cq rd => ⟨fun ri => (hreg cq rd ri).trans (wordTwoReg_eq_append ..),
    fun v => (himm cq rd v).trans (wordTwoImm_eq_append ..)⟩

theorem immediate20_eq_ofInt (v : BitVec 20) : immediate20 v = BitVec.ofInt 32 v.toInt := by
  rw [immediate20, BitVec.signExtend]

/-! ### CMP -/

/-- The comparison of either format of CMP, with its frame: its operand is `b`, and `n` the operand's signed value. -/
theorem exists_compared_of_conditionally {o : Host.Outcome State Fault Refusal} {cq : Query} {a b : Word} {n : Int} {s : State}
    (hexec : Executes cq s) (hn : b.toInt = n) (h : o = conditionally cq s (s.setCr (compareSigned a b)).advance) :
    ∃ t, o = .next t ∧ (a.toInt < n → t.cr = 0b100#3) ∧ (a.toInt = n → t.cr = 0b010#3) ∧ (a.toInt > n → t.cr = 0b001#3) ∧
      (∀ r, t.readReg r = s.readReg r) ∧ KeepsMemories s t := by
  subst hn
  refine ⟨_, h.trans (conditionally_of_passes hexec _), compareSigned_of_lt, fun heq => ?_, compareSigned_of_gt,
    fun _ => rfl, fun _ => rfl, fun _ => rfl⟩
  obtain rfl : a = b := BitVec.toInt_inj.1 heq
  exact compareSigned_self a

/-! ### LNK -/

theorem pcAdvances_of_pc_eq {s t : State} (h : t.pc = s.advance.pc) : PcAdvances s t := by
  intro hlt
  rw [h, State.advance_pc_toNat, Nat.mod_eq_of_lt hlt]

theorem pcOperand_add_ofInt (s : State) (n : Int) : pcOperand s + BitVec.ofInt 32 n = BitVec.ofInt 32 (s.pc.toInt + n) := by
  rw [pcOperand, BitVec.signExtend, BitVec.ofInt_add]

/-- The link of either format of LNK: its operand is `b`, the word of the integer `n`. -/
theorem exists_linked_of_writeResult {o : Host.Outcome State Fault Refusal} {cq : Query} {rd : RegNum} {b : Word} {n : Int}
    {s : State} (hexec : Executes cq s) (hn : b = BitVec.ofInt 32 n) (h : o = writeResult cq rd (pcOperand s + b) s) :
    ∃ t, o = .next t ∧ ResultWritten rd (BitVec.ofInt 32 (s.pc.toInt + n)) s t ∧ PcAdvances s t := by
  rw [hn, pcOperand_add_ofInt] at h
  exact ⟨_, h.trans (writeResult_of_passes hexec _ _), resultWritten_writeReg_advance rd _ s, pcAdvances_of_pc_eq rfl⟩

end Sys2Proof.Machine

namespace Sys2Proof.Proofs

open Sys2Proof.Machine Sys2Proof.Claims

/-- Settles O34: both formats write their operand, and the sign extension is the word of the immediate's signed value. -/
theorem stlResult : Obligations.StlResult := by
  refine ⟨twoArgEncoded_of_words (fun _ _ _ => rfl) (fun _ _ _ => rfl), fun cq rd s hexec =>
    ⟨fun ri => exists_resultWritten_of_writeResult hexec rfl, fun v => ?_⟩⟩
  rw [← immediate20_eq_ofInt]
  exact exists_resultWritten_of_writeResult hexec rfl

/-- Settles O35: an executed CMP leaves the signed comparison in `$CR`, by the order of the two signed values; a skipped one only
advances. -/
theorem cmpResult : Obligations.CmpResult := by
  refine ⟨twoArgEncoded_of_words (fun _ _ _ => rfl) (fun _ _ _ => rfl), fun cq rd s => ⟨fun hexec => ?_, fun hskip => ?_⟩⟩
  · exact ⟨fun ri => exists_compared_of_conditionally hexec rfl rfl,
      fun v => exists_compared_of_conditionally hexec (immediate20_toInt v) rfl⟩
  · exact ⟨fun ri => ⟨_, exec_of_not_executes (i := .cmpReg cq rd ri) hskip, s.advance_cr⟩,
      fun v => ⟨_, exec_of_not_executes (i := .cmpImm cq rd v) hskip, s.advance_cr⟩⟩

/-- Settles O36: both formats write the sum of the sign-extended `pc` and their operand, which is the sum of the signed values
modulo 2^32, then advance. -/
theorem lnkResult : Obligations.LnkResult :=
  ⟨twoArgEncoded_of_words (fun _ _ _ => rfl) (fun _ _ _ => rfl), fun _ _ s hexec =>
    ⟨fun ri => exists_linked_of_writeResult hexec (s.readReg ri).ofInt_toInt.symm rfl,
      fun v => exists_linked_of_writeResult hexec (immediate20_eq_ofInt v) rfl⟩⟩

end Sys2Proof.Proofs
end

