-- ==== Sys2Proof/Proofs/Jump.lean ====
section
/-! PROOFS. What JMP does: the target as a number and of an immediate, and the state an executed and a skipped jump leave
(45_jump.md R161). -/

namespace Sys2Proof.Machine

open Sys2Proof.Claims

/-! ### The target -/

theorem jumpTarget_toNat (ri24 : Word) : (jumpTarget ri24).toNat = ri24.toNat % 2 ^ 24 := by
  rw [jumpTarget, BitVec.extractLsb'_toNat, Nat.shiftRight_zero]

/-- The sign extension keeps the 24 bits of the immediate, and the target reads no bit above them. -/
theorem jumpTarget_immediate24 (imm : BitVec 24) : jumpTarget (immediate24 imm) = imm := by
  ext k hk
  have hword : k < 32 := Nat.lt_trans hk (by decide)
  rw [jumpTarget, immediate24, BitVec.getElem_extractLsb', BitVec.getLsbD_signExtend]
  simp [hk, hword]

/-! ### Executed and skipped -/

theorem exec_jmpReg_of_executes {cq : Query} {s : State} (h : Executes cq s) (ri : RegNum) :
    exec (.jmpReg cq ri) s = .next (s.setPc (jumpTarget (s.readReg ri))) :=
  conditionally_of_passes h _

theorem exec_jmpImm_of_executes {cq : Query} {s : State} (h : Executes cq s) (imm : BitVec 24) :
    exec (.jmpImm cq imm) s = .next (s.setPc imm) :=
  calc exec (.jmpImm cq imm) s
    _ = .next (s.setPc (jumpTarget (immediate24 imm))) := conditionally_of_passes h _
    _ = .next (s.setPc imm) := by rw [jumpTarget_immediate24]

theorem exists_advanced_of_not_executes {i : Instr} {s : State} (h : ¬ Executes i.query s) :
    ∃ t, exec i s = .next t ∧ t = { s with pc := t.pc } ∧ PcAdvances s t :=
  ⟨s.advance, exec_of_not_executes h, rfl, pcAdvances_of_pc_eq rfl⟩

end Sys2Proof.Machine

namespace Sys2Proof.Proofs

open Sys2Proof.Machine Sys2Proof.Claims

/-- Settles O37: an executed JMP only sets `pc`, to the low 24 bits of its register or to its immediate; a skipped
one only advances. -/
theorem jmpResult : Obligations.JmpResult := by
  refine fun cq => ⟨fun ri => wordOneReg_eq_append _ cq ri, fun v => wordOneImm_eq_append _ cq v, fun s =>
    ⟨fun hexec => ⟨fun ri => ?_, fun v => ?_⟩, fun hskip => ⟨fun ri => ?_, fun v => ?_⟩⟩⟩
  · exact ⟨_, exec_jmpReg_of_executes hexec ri, jumpTarget_toNat _, rfl⟩
  · exact ⟨_, exec_jmpImm_of_executes hexec v, s.setPc_pc v, rfl⟩
  · exact exists_advanced_of_not_executes (i := .jmpReg cq ri) hskip
  · exact exists_advanced_of_not_executes (i := .jmpImm cq v) hskip

end Sys2Proof.Proofs
end

