-- ==== Sys2Proof/Proofs/PseudoInstructions.lean ====
section
/-! PROOFS. The pseudo-instructions, run from instruction memory: a step runs the first placed word, the rest stands placed
after it, and each expansion is one or two instructions whose meanings are known (46_assembler_and_pseudo.md R185 to R197). -/

namespace Sys2Proof.Claims

open Sys2Proof.Machine

/-! ### Running placed words -/

theorem Placed.step_eq_exec {i : Instr} {is : List Instr} {s : State} (h : Placed (i :: is) s) : step s = exec i s := by
  have hword : Memory.read s.imem (s.pc + 0#24) = encode i := h 0 (Nat.succ_pos _)
  rw [BitVec.add_zero] at hword
  exact step_of_decode ((congrArg decode hword).trans (decode_encode i))

theorem Placed.tail {i : Instr} {is : List Instr} {s t : State} (h : Placed (i :: is) s) (himem : t.imem = s.imem)
    (hpc : t.pc = s.pc + 1#24) : Placed is t := by
  intro k hk
  have hword := h (k + 1) (Nat.succ_lt_succ hk)
  rwa [BitVec.ofNat_add, BitVec.add_comm (BitVec.ofNat 24 k), ← BitVec.add_assoc, ← himem, ← hpc] at hword

/-- Two placed words of which the first writes a result: the second runs in the state the first leaves. -/
theorem Placed.run_two {i j : Instr} {cq : Query} {rd : RegNum} {v : Word} {s u : State} (h : Placed [i, j] s)
    (hexec : Executes cq s) (hi : exec i s = writeResult cq rd v s)
    (hj : Executes cq (s.writeReg rd v).advance → exec j (s.writeReg rd v).advance = .next u) :
    Host.Core.run core 2 s = .next u := by
  have hfirst : step s = .next (s.writeReg rd v).advance :=
    h.step_eq_exec.trans (hi.trans (writeResult_of_passes hexec rd v))
  have hrest : Placed [j] (s.writeReg rd v).advance := h.tail rfl rfl
  exact Machine.run_two hfirst (hrest.step_eq_exec.trans (hj hexec))

/-- One placed word that writes a result. -/
theorem Placed.exists_resultWritten {i : Instr} {cq : Query} {rd : RegNum} {v : Word} {s : State} (h : Placed [i] s)
    (hexec : Executes cq s) (hi : exec i s = writeResult cq rd v s) : ∃ t, step s = .next t ∧ ResultWritten rd v s t :=
  exists_resultWritten_of_writeResult hexec (h.step_eq_exec.trans hi)

end Sys2Proof.Claims

namespace Sys2Proof.Machine

open Sys2Proof.Claims

/-! ### The instructions of the expansions -/

theorem exec_stl (cq : Query) (rd : RegNum) (o : RegImm 20) (s : State) :
    exec (twoArg .stl cq rd o) s = writeResult cq rd (value20 s o) s := by
  cases o with
  | reg | imm => rfl

theorem queryNo_not_executes (s : State) : ¬ Executes queryNo s := by
  simp [queryNo]

/-! ### Runs that stay, and states written one after another -/

theorem run_of_step_eq_self {s : State} (h : step s = .next s) (k : Nat) : Host.Core.run core k s = .next s := by
  induction k with
  | zero => rfl
  | succ k ih => rw [run_succ h, ih]

theorem State.writeReg_writeReg_self (s : State) (r : RegNum) (v w : Word) :
    (s.writeReg r v).writeReg r w = s.writeReg r w := by
  simp [State.writeReg]

theorem State.writeReg_advance (s : State) (r : RegNum) (v : Word) : s.advance.writeReg r v = (s.writeReg r v).advance := rfl

theorem State.advance_advance (s : State) : s.advance.advance = { s with pc := s.pc + 2#24 } := by
  simp [State.advance, State.setPc, BitVec.add_assoc]

/-! ### Addresses and constants -/

/-- The base alone, as in `0($sp)`. -/
theorem effectiveAddress_zero (base : Word) : effectiveAddress base (immediate16 0#16) = base.extractLsb' 0 24 := by
  rw [effectiveAddress, show immediate16 0#16 = 0#32 by decide, BitVec.add_zero]

theorem addWrap_minusOne (a : Word) : addWrap a (immediate16 0xFFFF#16) = a - 1#32 := by
  rw [addWrap, BitVec.sub_eq_add_neg, show immediate16 0xFFFF#16 = -1#32 by decide]

/-- The return address JAL links, cut to 24 bits, is the address two words on. -/
theorem link_extractLsb' (pc : Addr) : (pc.signExtend 32 + 2#32).extractLsb' 0 24 = pc + 2#24 := by
  have hlow : (pc.signExtend 32).extractLsb' 0 24 = pc := jumpTarget_immediate24 pc
  rw [← BitVec.setWidth_eq_extractLsb' (by decide)] at hlow ⊢
  rw [BitVec.setWidth_add _ _ (by decide), hlow, BitVec.setWidth_ofNat_of_le (by decide)]

/-- SLI's slice fits 16 of the 20 bits, so its sign extension adds zeros. -/
theorem immediate20_lowerSlice (imm32 : Word) :
    immediate20 ((imm32.extractLsb' 0 16).setWidth 20) = BitVec.ofNat 32 (imm32.toNat % 2 ^ 16) := by
  have hmsb : ((imm32.extractLsb' 0 16).setWidth 20).msb = false := by simp [BitVec.msb_setWidth]
  apply BitVec.eq_of_toNat_eq
  rw [immediate20, BitVec.signExtend_eq_setWidth_of_msb_false hmsb]
  simp

theorem immediate16_toNat_mod (v : BitVec 16) : (immediate16 v).toNat % 2 ^ 16 = v.toNat := by
  have hlt : v.toNat < 2 ^ 16 := v.isLt
  rw [immediate16, BitVec.toNat_signExtend, BitVec.toNat_setWidth_of_le (by decide)]
  split <;> omega

theorem setUpper_upperSlice (rs imm32 : Word) :
    setUpper rs (immediate16 (imm32.extractLsb' 16 16)) =
      BitVec.ofNat 32 (imm32.toNat / 2 ^ 16 * 2 ^ 16 + rs.toNat % 2 ^ 16) := by
  have hupper : imm32.toNat / 2 ^ 16 < 2 ^ 16 := Nat.div_lt_of_lt_mul imm32.isLt
  rw [setUpper_eq_halves, immediate16_toNat_mod, BitVec.extractLsb'_toNat, Nat.shiftRight_eq_div_pow,
    Nat.mod_eq_of_lt hupper]

/-- The two slices of a constant put together again. -/
theorem setUpper_slices (imm32 : Word) :
    setUpper (immediate20 ((imm32.extractLsb' 0 16).setWidth 20)) (immediate16 (imm32.extractLsb' 16 16)) = imm32 := by
  have hlow : imm32.toNat % 2 ^ 16 % 2 ^ 32 % 2 ^ 16 = imm32.toNat % 2 ^ 16 := by omega
  rw [immediate20_lowerSlice, setUpper_upperSlice, BitVec.toNat_ofNat, hlow, Nat.div_add_mod', BitVec.ofNat_toNat,
    BitVec.setWidth_eq]

end Sys2Proof.Machine

namespace Sys2Proof.Proofs

open Sys2Proof.Machine Sys2Proof.Claims

/-- Settles O44: `?NO` never passes, so the word only advances. -/
theorem nopOnlyAdvances : Obligations.NopOnlyAdvances := by
  unfold Obligations.NopOnlyAdvances
  intro s hplaced
  exact hplaced.step_eq_exec.trans (exec_of_not_executes (queryNo_not_executes s))

/-- Settles O45: a JMP to its own address is a step to the same state, and a skipped one is the advance. -/
theorem endLoopsForEver : Obligations.EndLoopsForEver := by
  unfold Obligations.EndLoopsForEver
  intro cq s hplaced
  refine ⟨fun hexec => run_of_step_eq_self ?_, fun hskip => ?_⟩
  · exact hplaced.step_eq_exec.trans (exec_jmpImm_of_executes hexec s.pc)
  · exact hplaced.step_eq_exec.trans (exec_of_not_executes hskip)

/-- Settles O46: LNK writes `$ra`, then JMP reads its target in the state LNK leaves. -/
theorem jalLinksAndJumps : Obligations.JalLinksAndJumps := by
  unfold Obligations.JalLinksAndJumps
  intro cq target s hexec hplaced
  have hlink (p : Addr) : (((s.writeReg 1#4 (s.pc.signExtend 32 + 2#32)).advance.setPc p).readReg 1#4).extractLsb' 0 24 =
      s.pc + 2#24 := by
    rw [State.readReg_setPc, State.readReg_advance, State.readReg_writeReg_self, link_extractLsb']
  cases target with
  | imm v => exact ⟨_, hplaced.run_two hexec rfl fun hexec => exec_jmpImm_of_executes hexec v, rfl, hlink v⟩
  | reg r =>
    refine ⟨_, hplaced.run_two hexec rfl fun hexec => exec_jmpReg_of_executes hexec r, ?_, hlink _⟩
    rw [State.readReg_advance, State.readReg_writeReg]
    rfl

/-- Settles O47: STL writes `$rv`, which is not `$ra`, then JMP reads `$ra`. -/
theorem rtnSetsValueAndReturns : Obligations.RtnSetsValueAndReturns := by
  unfold Obligations.RtnSetsValueAndReturns
  intro cq value s hexec hplaced
  rw [hplaced.run_two hexec (exec_stl cq 0#4 value s) fun hexec => exec_jmpReg_of_executes hexec 1#4,
    State.readReg_advance, State.readReg_writeReg_of_ne _ _ _ _ (by decide)]
  rfl

/-- Settles O48: STL writes the low half, then STU puts the high half above it, in the same register. -/
theorem stiLoadsAnyConstant : Obligations.StiLoadsAnyConstant := by
  unfold Obligations.StiLoadsAnyConstant
  intro cq rd imm32 s hexec hplaced
  rw [hplaced.run_two hexec rfl fun hexec => writeResult_of_passes hexec _ _, State.readReg_advance,
    State.readReg_writeReg_self, setUpper_slices, State.writeReg_advance, State.writeReg_writeReg_self,
    State.advance_advance, State.writeReg_pc]

/-- Settles O49: ADD of `-1` writes `$sp`, then MST stores in the state ADD leaves. -/
theorem pshPushes : Obligations.PshPushes := by
  unfold Obligations.PshPushes
  intro cq rd s hexec hplaced
  refine ⟨_, hplaced.run_two hexec rfl fun hexec => conditionally_of_passes hexec _, ?_, fun r hr => ?_, rfl, rfl,
    fun a => ?_⟩
  · rw [State.readReg_advance, State.readReg_store, State.readReg_advance, State.readReg_writeReg_self,
      addWrap_minusOne]
  · exact s.readReg_writeReg_of_ne _ _ _ hr
  · rw [effectiveAddress_zero]
    exact State.load_store _ _ a _

/-- Settles O50: MLD loads the top, then ADD reads `$sp` in the state MLD leaves. -/
theorem popPops : Obligations.PopPops := by
  unfold Obligations.PopPops
  intro cq rd s hexec hplaced
  refine ⟨_, hplaced.run_two hexec rfl fun hexec => writeResult_of_passes hexec _ _, fun r => ?_, rfl, fun _ => rfl,
    fun _ => rfl⟩
  simp only [effectiveAddress_zero, State.readReg_advance, State.readReg_writeReg, eq_comm (a := 15#4) (b := rd)]
  rfl

/-- Settles O51: each word writes a result, whose value is that of the statement. -/
theorem oneWordPseudoResults : Obligations.OneWordPseudoResults := by
  unfold Obligations.OneWordPseudoResults
  intro cq rd rs imm32 o s hexec
  refine ⟨fun hplaced => ?_, fun hplaced => ?_, fun hplaced => ?_, fun hplaced => ?_, fun hplaced => ?_⟩
  · exact hplaced.exists_resultWritten hexec rfl
  · exact hplaced.exists_resultWritten hexec (exec_stl cq rd o s)
  · rw [← immediate20_lowerSlice]
    exact hplaced.exists_resultWritten hexec rfl
  · rw [← setUpper_upperSlice]
    exact hplaced.exists_resultWritten hexec rfl
  · rw [← effectiveAddress_zero]
    exact hplaced.exists_resultWritten hexec rfl

end Sys2Proof.Proofs
end

