-- ==== Sys2Proof/Proofs/AssemblerOperands.lean ====
section
/-! PROOFS. Labels as operands, the number of words of an accepted statement, and letter case (46_assembler_and_pseudo.md R170,
R180 to R183, R199). -/

namespace Sys2Proof.Machine

/-! ### A label in each slot -/

theorem operand20_label {table : LabelTable} {name : LabelName} {a : Nat} (h : labelAddress table name = .ok a) (here : Nat) :
    operand20 table here (.label name) = (slotField 20 ((a : Int) - here)).map .imm := by
  simp only [operand20, h]
  rfl

theorem slotField_of_address {n a : Nat} (h : a < 2 ^ n) : slotField n (a : Int) = .ok (BitVec.ofNat n a) := by
  have hmax : (a : Int) < 2 ^ n := by exact_mod_cast h
  have hmin : (0 : Int) < 2 ^ (n - 1) := by positivity
  rw [slotField_of_fits ⟨by omega, by omega⟩, BitVec.ofInt_natCast]

theorem operand24_label {table : LabelTable} {name : LabelName} {a : Nat} (h : labelAddress table name = .ok a)
    (ha : a < 2 ^ 24) : operand24 table (.label name) = .ok (.imm (BitVec.ofNat 24 a)) := by
  simp only [operand24, h]
  exact congrArg (Except.map RegImm.imm) (slotField_of_address ha)

theorem operand32_label {table : LabelTable} {name : LabelName} {a : Nat} (h : labelAddress table name = .ok a)
    (ha : a < 2 ^ 24) : operand32 table (.label name) = .ok (BitVec.ofNat 32 a) := by
  simp only [operand32, h]
  exact slotField_of_address (ha.trans (by decide))

/-! ### 3-ARG operands in text order -/

theorem threeOperands_textOrder (m : ThreeArg) (rd rs : RegNum) (o : Operand) :
    threeOperands m (if registerImmediateSecond m then [.reg rd, o, .reg rs] else [.reg rd, .reg rs, o]) =
      some (rd, rs, o) := by
  cases h : registerImmediateSecond m <;> simp [threeOperands, h]

theorem expandStatement_three {m : ThreeArg} {os : List Operand} {rd rs : RegNum} {o : Operand}
    (h : threeOperands m os = some (rd, rs, o)) (table : LabelTable) (here : Nat) (q : Option Query) :
    expandStatement table here ⟨.three m, q, os⟩ =
      operand16 o >>= fun ri => .ok [threeArg m (q.getD queryOk) rd rs ri] := by
  simp only [expandStatement, h]
  rfl

/-! ### The number of words -/

/-- An operand only chooses the fields of an expansion: when every choice gives `n` instructions, an accepted one does. -/
theorem length_of_bind_eq_ok {α : Type} {x : Except AsmError α} {f : α → List Instr} {n : Nat} {is : List Instr}
    (hf : ∀ a, (f a).length = n) (h : (x >>= fun a => .ok (f a)) = .ok is) : is.length = n := by
  obtain ⟨a, -, ha⟩ := except_bind_eq_ok.1 h
  obtain rfl : f a = is := Except.ok.inj ha
  exact hf a

theorem length_of_expandStatement {table : LabelTable} {here : Nat} {st : Statement} {is : List Instr}
    (h : expandStatement table here st = .ok is) : is.length = wordCount st.mnemonic := by
  unfold expandStatement at h
  split at h
  -- A 3-ARG instruction, whose operands stand in the order of its mnemonic or are rejected.
  case h_1 hm =>
    rw [hm]
    split at h
    · exact length_of_bind_eq_ok (fun _ => rfl) h
    · cases h
  -- One operand to resolve: STL, CMP, LNK, JMP, JAL, RTN, MOV, SLI, SUI, STI.
  case h_2 hm _ | h_3 hm _ | h_6 hm _ | h_7 hm _ | h_9 hm _ | h_10 hm _ | h_11 hm _ | h_12 hm _ =>
    rw [hm]
    exact length_of_bind_eq_ok (fun _ => rfl) h
  -- Nothing to resolve: NOP, END, NIL, PSH, TOP, POP.
  case h_4 hm _ | h_5 hm _ | h_8 hm _ | h_13 hm _ | h_14 hm _ | h_15 hm _ =>
    cases h
    rw [hm]
    rfl
  -- Any other list of operands is rejected.
  case h_16 => cases h

/-! ### Letter case -/

/-- A change of letters that lowering removes makes no difference to the assembler, which lowers its text first. -/
theorem assemble_map_of_toLower {f : Char → Char} (hf : ∀ c, (f c).toLower = c.toLower) (base : Addr) (text : List Char) :
    assemble base (text.map f) = assemble base text := by
  have htext : (text.map f).map Char.toLower = text.map Char.toLower := by
    rw [List.map_map]
    exact List.map_congr_left fun c _ => hf c
  rw [assemble, htext, assemble]

end Sys2Proof.Machine

namespace Sys2Proof.Proofs

open Sys2Proof.Machine

/-- Settles O53: the register-immediate position of every 3-ARG mnemonic is that of a 16-bit slot, which takes no label; SUI's
is that of a 32-bit constant. -/
theorem labelInThreeArgIsRejected : Obligations.LabelInThreeArgIsRejected := by
  unfold Obligations.LabelInThreeArgIsRejected
  intro table here m q rd rs name
  refine ⟨?_, fun a ha hlabel => ?_⟩
  · rw [expandStatement_three (threeOperands_textOrder m rd rs (.label name))]
    rfl
  · simp only [expandStatement, operand32_label hlabel ha]
    rfl

/-- Settles O54: an address fits 24 bits, while a distance fits 20 bits or not. -/
theorem labelsAbsoluteInOneArgRelativeInTwoArg : Obligations.LabelsAbsoluteInOneArgRelativeInTwoArg := by
  unfold Obligations.LabelsAbsoluteInOneArgRelativeInTwoArg
  intro table here a q rd name _ ha hlabel
  refine ⟨?_, ?_, fun m => ?_⟩
  · simp only [expandStatement, operand24_label hlabel ha]
    rfl
  · simp only [expandStatement, operand24_label hlabel ha]
    rfl
  · simp only [expandStatement, operand20_label hlabel]
    split
    next hfits => rw [slotField_of_fits hfits]; rfl
    next hwide => rw [slotField_of_not_fits hwide]; rfl

/-- Settles O55: each accepting branch of the expansion, by its mnemonic. -/
theorem acceptedStatementHasItsWordCount : Obligations.AcceptedStatementHasItsWordCount := by
  unfold Obligations.AcceptedStatementHasItsWordCount
  intro _ _ _ _ h
  exact length_of_expandStatement h

/-- Settles O56: the assembler lowers its text first, and lowering removes a change of case made before it. -/
theorem assemblyIgnoresCase : Obligations.AssemblyIgnoresCase := by
  unfold Obligations.AssemblyIgnoresCase
  intro base text
  exact ⟨assemble_map_of_toLower Char.toLower_toUpper_eq_toLower base text,
    assemble_map_of_toLower Char.toLower_toLower_eq_toLower base text⟩

end Sys2Proof.Proofs
end

