-- ==== Sys2Proof/Proofs/ResetAndEnd.lean ====
section
/-! PROOFS. The start of a program and its end: what reset leaves, what a skipped instruction does, and the JMP to its own
address, the one step that changes nothing (40_execution_cycle.md R95, 70_reset_and_hazards.md R235 to R245). -/

namespace Sys2Proof.Machine

open Sys2Proof.Claims

/-! ### The start -/

theorem queryPasses_ok_iff (cq : Query) : queryPasses cq 0b111#3 = true ↔ cq ≠ 0b000#3 := by
  have hand : cq &&& 0b111#3 = cq := BitVec.and_allOnes
  rw [queryPasses_iff, hand]

theorem exists_crCompared_of_isCmp {i : Instr} {s : State} (hcmp : isCmp i = true) (hexec : Executes i.query s) :
    ∃ t, exec i s = .next t ∧ CrCompared t := by
  obtain ⟨t, ht, heff⟩ := exec_of_executes hexec
  exact ⟨t, ht, heff.crCompared_of_isCmp hcmp⟩

/-! ### The end -/

theorem isTerminal_iff (s : State) :
    isTerminal s = true ↔
      Executes (decode s.fetchWord).query s ∧ jumpTargetOf (decode s.fetchWord) s = some s.pc := by
  rw [isTerminal, Bool.and_eq_true, queryPasses_iff, beq_iff_eq]

theorem exec_eq_conditionally_of_jumpTargetOf {i : Instr} {s : State} {target : Addr}
    (h : jumpTargetOf i s = some target) : exec i s = conditionally i.query s (s.setPc target) := by
  cases i with
  | jmpReg | jmpImm => cases h; rfl
  | _ => cases h

theorem exists_jumpTargetOf_of_isJmp {i : Instr} (h : isJmp i = true) (s : State) :
    ∃ target, jumpTargetOf i s = some target := by
  cases i with
  | jmpReg | jmpImm => exact ⟨_, rfl⟩
  | _ => cases h

/-- The advance modulo 2^24 leaves no address where it is, so an instruction that changes nothing is an executed JMP. -/
theorem isJmp_and_executes_of_exec_eq_self {i : Instr} {s : State} (h : exec i s = .next s) :
    isJmp i = true ∧ Executes i.query s := by
  by_contra hnot
  have hadvances : isJmp i = false ∨ ¬ Executes i.query s := by
    rwa [not_and_or, Bool.not_eq_true] at hnot
  obtain ⟨t, ht, hpc⟩ := Proofs.programCounterAdvancesByOne i s hadvances
  obtain rfl : s = t := Host.Outcome.next.inj (h.symm.trans ht)
  have hlt : s.pc.toNat < 2 ^ 24 := s.pc.isLt
  omega

theorem exec_eq_self_iff (i : Instr) (s : State) :
    exec i s = .next s ↔ Executes i.query s ∧ jumpTargetOf i s = some s.pc := by
  constructor
  · intro h
    obtain ⟨hjmp, hexec⟩ := isJmp_and_executes_of_exec_eq_self h
    obtain ⟨target, htarget⟩ := exists_jumpTargetOf_of_isJmp hjmp s
    rw [exec_eq_conditionally_of_jumpTargetOf htarget, conditionally_of_passes hexec] at h
    have hpc : target = s.pc := congrArg State.pc (Host.Outcome.next.inj h)
    exact ⟨hexec, hpc ▸ htarget⟩
  · rintro ⟨hexec, htarget⟩
    exact (exec_eq_conditionally_of_jumpTargetOf htarget).trans (conditionally_of_passes hexec _)

end Sys2Proof.Machine

namespace Sys2Proof.Proofs

open Sys2Proof.Machine Sys2Proof.Claims

/-- Settles O9: every arm of `exec` stands in the shared frame, which only advances when the query fails. -/
theorem skippedInstructionOnlyAdvances : Obligations.SkippedInstructionOnlyAdvances := by
  unfold Obligations.SkippedInstructionOnlyAdvances
  intro i s hskip
  exact exec_of_not_executes hskip

/-- Settles O12: `?OK` has a bit in common with every query but `?NO`, and an executed CMP leaves the result of a comparison. -/
theorem comparisonRegisterStartsAtOk : Obligations.ComparisonRegisterStartsAtOk := by
  unfold Obligations.ComparisonRegisterStartsAtOk
  refine ⟨rfl, fun resetPc resetX imem dmem => ⟨State.launch_cr .., fun cq => queryPasses_ok_iff cq⟩,
    fun cq rd s hexec => ⟨fun ri => ?_, fun v => ?_⟩⟩
  · exact exists_crCompared_of_isCmp (i := .cmpReg cq rd ri) rfl hexec
  · exact exists_crCompared_of_isCmp (i := .cmpImm cq rd v) rfl hexec

/-- Settles O40: reset sets `$CR` to `?OK` and lists no word of either memory. -/
theorem resetMeetsTheInvariants : Obligations.ResetMeetsTheInvariants :=
  ⟨.inl (State.launch_cr ..), (State.memWf_iff _).2 ⟨Memory.wf_nil, Memory.wf_nil⟩⟩

/-- Settles O42: only an executed JMP does not advance, and it changes nothing exactly when its target is `pc`. -/
theorem terminalExactlyWhenStepIsIdentity : Obligations.TerminalExactlyWhenStepIsIdentity := by
  unfold Obligations.TerminalExactlyWhenStepIsIdentity
  intro s
  exact (isTerminal_iff s).trans (exec_eq_self_iff (decode s.fetchWord) s).symm

/-- Settles O43: the step of a terminal state answers that state, so every run of it does. -/
theorem terminalStateIsForEver : Obligations.TerminalStateIsForEver := by
  unfold Obligations.TerminalStateIsForEver
  intro s hterminal
  exact run_of_step_eq_self ((terminalExactlyWhenStepIsIdentity s).1 hterminal)

end Sys2Proof.Proofs
end

