-- ==== Sys2Proof/Proofs/UnusedBits.lean ====
section
/-! PROOFS. The unused bits: which they are is told by bits 31:28 and 24 alone, the decoder reads none of them, and the encoder
writes them as zero (30_encoding.md R71, R73, R77). -/

namespace Sys2Proof

/-! ### The mask -/

theorem opcodeField_and_rowMask (w : Word) : opcodeField (w &&& rowMask) = opcodeField w := by
  rw [opcodeField, BitVec.extractLsb'_and]
  exact BitVec.and_allOnes

theorem immediateBit_and_rowMask (w : Word) : immediateBit (w &&& rowMask) = immediateBit w := by
  rw [immediateBit, BitVec.getLsbD_and]
  exact Bool.and_true _

theorem unusedMask_eq_of_fields (w : Word) :
    unusedMask w =
      if immediateBit w then 0x00000000#32
      else if (opcodeField w).toNat ≤ 11 then 0x0000FFF0#32
      else if (opcodeField w).toNat ≤ 14 then 0x000FFFF0#32
      else 0x00FFFFF0#32 := rfl

/-- Words that agree on bits 31:28 and 24 have the same unused bits. -/
theorem unusedMask_congr {w v : Word} (h : w &&& rowMask = v &&& rowMask) : unusedMask w = unusedMask v := by
  have hmask (u : Word) : unusedMask (u &&& rowMask) = unusedMask u := by
    simp only [unusedMask_eq_of_fields, immediateBit_and_rowMask, opcodeField_and_rowMask]
  rw [← hmask w, h, hmask v]

theorem unusedMask_and_rowMask (w : Word) : unusedMask w &&& rowMask = 0#32 := by
  rw [unusedMask]
  split_ifs <;> rfl

/-! ### The decoder does not read the unused bits -/

theorem decode_clearUnused (w : Word) : decode (clearUnused w) = decode w := by
  rw [← encode_decode, decode_encode]

/-- Bits changed under a mask do not show under one that has no bit in common with it. -/
theorem xor_and_and_of_disjoint {m n : Word} (h : m &&& n = 0#32) (w u : Word) : (w ^^^ (u &&& m)) &&& n = w &&& n := by
  ext k hk
  have hbit : (m[k] && n[k]) = false := by rw [← BitVec.getElem_and, h, BitVec.getElem_zero]
  rw [BitVec.getElem_and, BitVec.getElem_xor, BitVec.getElem_and, BitVec.getElem_and, Bool.and_xor_distrib_right,
    Bool.and_assoc, hbit, Bool.and_false, Bool.xor_false]

theorem clearUnused_xor_unused (w u : Word) : clearUnused (w ^^^ (u &&& unusedMask w)) = clearUnused w := by
  have hmask : unusedMask (w ^^^ (u &&& unusedMask w)) = unusedMask w :=
    unusedMask_congr (xor_and_and_of_disjoint (unusedMask_and_rowMask w) w u)
  rw [clearUnused, hmask, xor_and_and_of_disjoint (BitVec.and_not_self _), clearUnused]

theorem decode_xor_unused (w u : Word) : decode (w ^^^ (u &&& unusedMask w)) = decode w := by
  rw [← decode_clearUnused, clearUnused_xor_unused, decode_clearUnused]

/-! ### The encoder writes them as zero -/

theorem canonicalWord_clearUnused (w : Word) : canonicalWord (clearUnused w) = true := by
  have hmask : unusedMask (clearUnused w) = unusedMask w := unusedMask_congr (clearUnused_and_rowMask w)
  rw [canonicalWord, hmask, clearUnused, BitVec.and_assoc, BitVec.and_comm (~~~ _), BitVec.and_not_self, beq_iff_eq]
  exact BitVec.and_zero

theorem canonicalWord_encode (i : Instr) : canonicalWord (encode i) = true := by
  rw [← decode_encode i, encode_decode]
  exact canonicalWord_clearUnused _

end Sys2Proof

namespace Sys2Proof.Proofs

/-- Settles O3: in each opcode range the mask of the statement is that of the word's unused bits. -/
theorem decodeIgnoresUnusedBits : Obligations.DecodeIgnoresUnusedBits := by
  unfold Obligations.DecodeIgnoresUnusedBits
  intro w u hreg
  have hdecode := decode_xor_unused w u
  rw [unusedMask, hreg, if_neg Bool.false_ne_true] at hdecode
  refine ⟨fun hthree => ?_, fun ⟨hmin, hmax⟩ => ?_, fun hone => ?_⟩
  · rwa [if_pos hthree] at hdecode
  · rwa [if_neg (by omega), if_pos hmax] at hdecode
  · rwa [if_neg (by omega), if_neg (by omega)] at hdecode

end Sys2Proof.Proofs
end

