-- ==== Sys2Proof/Proofs/LoadAfterStore.lean ====
section
/-! PROOFS. A load after a store, in program order: the two effective addresses decide which word it returns
(20_memory.md R43, R53). -/

namespace Sys2Proof.Machine

open Sys2Proof.Claims

theorem exec_mstReg_of_executes {cq : Query} {s : State} (h : Executes cq s) (rd rs ri : RegNum) :
    exec (.mstReg cq rd rs ri) s =
      .next (s.store (address (s.readReg rs) (s.readReg ri)) (s.readReg rd)).advance := by
  rw [← effectiveAddress_eq_address]
  exact conditionally_of_passes h _

end Sys2Proof.Machine

namespace Sys2Proof.Proofs

open Sys2Proof.Machine Sys2Proof.Claims

/-- Settles O33: the load runs in the state the store leaves, whose registers and `$CR` are those of before. -/
theorem loadSeesTheLatestStore : Obligations.LoadSeesTheLatestStore := by
  unfold Obligations.LoadSeesTheLatestStore
  intro cq rd rs ri rd' rs' ri' s t hexec hstore
  obtain rfl := Host.Outcome.next.inj ((exec_mstReg_of_executes hexec rd rs ri).symm.trans hstore)
  have hkept : Executes cq (s.store (address (s.readReg rs) (s.readReg ri)) (s.readReg rd)).advance := hexec
  obtain ⟨-, hload⟩ := mldResult
  obtain ⟨hreg, -⟩ := hload cq rd' rs' _ hkept
  obtain ⟨u, hu, hread, -⟩ := hreg ri'
  exact ⟨u, hu, hread.trans (State.load_store ..)⟩

end Sys2Proof.Proofs
end

