-- ==== Sys2Proof/Proofs/AssembledProgram.lean ====
section
/-! PROOFS. From a constant to its slot, and from an accepted text to instruction memory: what a slot accepts and how it reads
back, the number of words, and where they stand after the launch (46_assembler_and_pseudo.md R183, R184,
70_reset_and_hazards.md R239). -/

namespace Sys2Proof.Machine

/-! ### Slots -/

theorem slotField_eq_ok_iff {n : Nat} {v : Int} {f : BitVec n} :
    slotField n v = .ok f ↔ (-(2 : Int) ^ (n - 1) ≤ v ∧ v ≤ (2 : Int) ^ n - 1) ∧ BitVec.ofInt n v = f := by
  by_cases hfits : -(2 : Int) ^ (n - 1) ≤ v ∧ v ≤ (2 : Int) ^ n - 1
  · simp [slotField_of_fits hfits, hfits]
  · exact iff_of_false (by simp [slotField_of_not_fits hfits]) fun h => hfits h.1

/-- The field of an accepted value holds it modulo 2^N, read between -2^(N-1) and 2^(N-1) - 1. -/
theorem toInt_ofInt_of_fits {n : Nat} {v : Int} (hn : 1 ≤ n) (hmin : -(2 : Int) ^ (n - 1) ≤ v)
    (hmax : v ≤ (2 : Int) ^ n - 1) :
    (BitVec.ofInt n v).toInt = if v < 2 ^ (n - 1) then v else v - 2 ^ n := by
  have hdouble : (2 : Int) ^ n = 2 * 2 ^ (n - 1) := by rw [← pow_succ', Nat.sub_add_cancel hn]
  have hcast : ((2 ^ n : Nat) : Int) = 2 ^ n := by push_cast; rfl
  rw [BitVec.toInt_ofInt]
  split
  next hlow => exact Int.bmod_eq_of_le_mul_two (by omega) (by omega)
  next hhigh =>
    rw [← Int.sub_bmod_right, hcast]
    exact Int.bmod_eq_of_le_mul_two (by omega) (by omega)

/-! ### The words of an accepted text -/

theorem length_of_expandLine {table : LabelTable} {here : Nat} {l : Line} {is : List Instr}
    (h : expandLine table here l = .ok is) : is.length = lineWords l := by
  obtain ⟨label, _ | st⟩ := l
  · obtain rfl : [] = is := Except.ok.inj h
    rfl
  · exact length_of_expandStatement h

theorem length_of_expandLines {table : LabelTable} {here : Nat} {ls : List Line} {is : List Instr}
    (h : expandLines table here ls = .ok is) : is.length = programWords ls := by
  induction ls generalizing here is with
  | nil =>
    obtain rfl : [] = is := Except.ok.inj h
    rfl
  | cons l ls ih =>
    obtain ⟨first, hfirst, h⟩ := except_bind_eq_ok.1 h
    obtain ⟨rest, hrest, h⟩ := except_bind_eq_ok.1 h
    obtain rfl : first ++ rest = is := Except.ok.inj h
    rw [List.length_append, length_of_expandLine hfirst, ih hrest]
    rfl

/-- The words of accepted lines are those of as many instructions as the lines count, and these fit from the base upward. -/
theorem assembleLines_eq_ok {base : Addr} {ls : List Line} {ws : List Word} (h : assembleLines base ls = .ok ws) :
    ∃ is : List Instr, ws = is.map encode ∧ base.toNat + is.length ≤ 2 ^ 24 := by
  unfold assembleLines at h
  split at h
  · cases h
  next hfits =>
    obtain ⟨table, -, h⟩ := except_bind_eq_ok.1 h
    obtain ⟨is, his, h⟩ := except_bind_eq_ok.1 h
    refine ⟨is, (Except.ok.inj h).symm, ?_⟩
    rw [length_of_expandLines his]
    omega

theorem assemble_eq_ok {base : Addr} {text : List Char} {ws : List Word} (h : assemble base text = .ok ws) :
    ∃ is : List Instr, ws = is.map encode ∧ base.toNat + is.length ≤ 2 ^ 24 := by
  obtain ⟨ls, -, hls⟩ := except_bind_eq_ok.1 h
  exact assembleLines_eq_ok hls

/-! ### The launch -/

theorem launchProgram_of_assemble {base : Addr} {text : List Char} {ws : List Word} (h : assemble base text = .ok ws)
    (x : Vector Word 16) (dmem : Memory) :
    launchProgram base x dmem text = .ok (State.launch base x (Memory.writeFrom [] base ws) dmem) :=
  except_bind_eq_ok.2 ⟨ws, h, rfl⟩

/-- Words placed from `a` upward, no more than there are addresses, stand there in order: the later ones do not reach round to
the first. -/
theorem Memory.read_writeFrom (m : Memory) (a : Addr) {vs : List Word} (hfits : vs.length ≤ 2 ^ 24) {k : Nat}
    (hk : k < vs.length) : Memory.read (Memory.writeFrom m a vs) (a + BitVec.ofNat 24 k) = vs[k] := by
  induction vs generalizing m a k with
  | nil => cases hk
  | cons v vs ih =>
    rw [List.length_cons] at hfits hk
    cases k with
    | zero =>
      have hlater : ∀ j < vs.length, a ≠ a + 1#24 + BitVec.ofNat 24 j := by
        intro j hj heq
        bv_omega
      rw [BitVec.add_zero, Memory.writeFrom, Memory.read_writeFrom_of_ne _ _ _ _ hlater, Memory.read_write_self]
      rfl
    | succ k =>
      have haddr : a + BitVec.ofNat 24 (k + 1) = a + 1#24 + BitVec.ofNat 24 k := by
        rw [BitVec.ofNat_add, BitVec.add_comm (BitVec.ofNat 24 k), BitVec.add_assoc]
      rw [haddr]
      exact ih (Memory.write m a v) (a + 1#24) (by omega) (by omega)

end Sys2Proof.Machine

namespace Sys2Proof.Proofs

open Sys2Proof.Machine

/-- Settles O52: the field is the value modulo 2^N, which the signed reading gives back as itself or less 2^N. -/
theorem slotAcceptsAndReadsBack : Obligations.SlotAcceptsAndReadsBack := by
  unfold Obligations.SlotAcceptsAndReadsBack
  intro n v hn
  refine ⟨⟨fun ⟨f, hf⟩ => (slotField_eq_ok_iff.1 hf).1, fun hfits => ⟨_, slotField_of_fits hfits⟩⟩, fun f hf => ?_⟩
  obtain ⟨⟨hmin, hmax⟩, rfl⟩ := slotField_eq_ok_iff.1 hf
  exact toInt_ofInt_of_fits hn hmin hmax

/-- Settles O57: the words are encoded instructions, as many as the lines count, and the launch places them in order. -/
theorem launchedProgramStandsAtItsBase : Obligations.LaunchedProgramStandsAtItsBase := by
  unfold Obligations.LaunchedProgramStandsAtItsBase
  intro base x dmem text ws h
  obtain ⟨is, hws, hfits⟩ := assemble_eq_ok h
  have hlength : ws.length = is.length := by rw [hws, List.length_map]
  refine ⟨hlength ▸ hfits, fun w hw => ?_, _, launchProgram_of_assemble h x dmem, rfl, rfl, rfl, fun k hk => ?_⟩
  · obtain ⟨i, -, rfl⟩ := List.mem_map.1 (hws ▸ hw)
    exact canonicalWord_encode i
  · exact Memory.read_writeFrom [] base (by omega) hk

end Sys2Proof.Proofs
end
